-- ==== Sys2Proof/Word.lean ====
section
/-! DEFINITION. The Word of the machine (R12, R21): a sign, an integer part and fraction digits; and the native
floating value an input token can carry (R139). No operation is defined here but the zero Word: the codec is in
Machine/Codec.lean, the tests on Words in Machine/Flags.lean. -/

namespace Sys2Proof

/-- One hexadecimal digit. -/
abbrev HexDigit := Fin 16

/-- Text, as a list of characters (the text form of a Word, R80). -/
abbrev Text := List Char

/-- A Word is the triple `(neg, ip, fr)` of R12: the sign (`true` for `-`), the integer part of the magnitude, and the
fraction digits, most significant first. Leading zeros of a text are not part of it (R21, decision D12; log entry 4).
`ip` is unbounded (R23, decision D3): the bound `±FFFFF` is a check, not a width. -/
structure Word where
  neg : Bool
  ip  : Nat
  fr  : List HexDigit
  deriving DecidableEq, Repr, Inhabited

/-- `ZERO`, the Word `(false, 0, ())` (R12). -/
def Word.zero : Word := ⟨false, 0, []⟩

/-- A native floating value as the host hands it over (R139). The spec gives native floating values no format, so a
finite value stands as its exact rational; a zero with a negative sign and the non-finite values that a native format
may have stand apart (log entry 9). -/
inductive NativeDouble where
  | finite (q : Rat)
  | negativeZero
  | positiveInfinity
  | negativeInfinity
  | notANumber
  deriving DecidableEq, Repr

end Sys2Proof
end

