-- ==== Sys2Proof/Syntax.lean ====
section
/-! DEFINITION. The instructions: one constructor of `Instr` per row of spec/opcode_table.json, each with the operand
field of format `OA` (R61); and the same 25 names without operands (`Mnemonic`), which the opcode map is keyed by. -/

namespace Sys2Proof

/-- The 25 mnemonics of the opcode map (R64). -/
inductive Mnemonic where
  | readInt
  | writeInt
  | newline
  | readString
  | writeString
  | readDouble
  | writeDouble
  | load
  | store
  | addDouble
  | subtractDouble
  | divideDouble
  | multiplyDouble
  | remainderDouble
  | powerDouble
  | addInt
  | subtractInt
  | divideInt
  | multiplyInt
  | remainderInt
  | powerInt
  | branch
  | branchNeg
  | branchZero
  | halt
  deriving DecidableEq, Repr

/-- An instruction: its mnemonic and its operand field. The operand is the cell index, the branch target, or (NEWLINE,
HALT) a value that is ignored (R63, R66). That it fits the field of three hexadecimal digits is `Instr.wellFormed`. -/
inductive Instr where
  /-- READ_INT, R130. -/
  | readInt (operand : Nat)
  /-- WRITE_INT, R131. -/
  | writeInt (operand : Nat)
  /-- NEWLINE, R132. -/
  | newline (operand : Nat)
  /-- READSTRING, R133. -/
  | readString (operand : Nat)
  /-- WRITESTRING, R134. -/
  | writeString (operand : Nat)
  /-- READ_DOUBLE, R135. -/
  | readDouble (operand : Nat)
  /-- WRITE_DOUBLE, R136. -/
  | writeDouble (operand : Nat)
  /-- LOAD, R150. -/
  | load (operand : Nat)
  /-- STORE, R151. -/
  | store (operand : Nat)
  /-- ADD_DOUBLE, R156. -/
  | addDouble (operand : Nat)
  /-- SUBTRACT_DOUBLE, R157. -/
  | subtractDouble (operand : Nat)
  /-- DIVIDE_DOUBLE, R158. -/
  | divideDouble (operand : Nat)
  /-- MULTIPLY_DOUBLE, R159. -/
  | multiplyDouble (operand : Nat)
  /-- REMAINDER_DOUBLE, R160. -/
  | remainderDouble (operand : Nat)
  /-- POWER_DOUBLE, R161. -/
  | powerDouble (operand : Nat)
  /-- ADD_INT, R171. -/
  | addInt (operand : Nat)
  /-- SUBTRACT_INT, R172. -/
  | subtractInt (operand : Nat)
  /-- DIVIDE_INT, R173. -/
  | divideInt (operand : Nat)
  /-- MULTIPLY_INT, R174. -/
  | multiplyInt (operand : Nat)
  /-- REMAINDER_INT, R175. -/
  | remainderInt (operand : Nat)
  /-- POWER_INT, R176. -/
  | powerInt (operand : Nat)
  /-- BRANCH, R185. -/
  | branch (operand : Nat)
  /-- BRANCHNEG, R186. -/
  | branchNeg (operand : Nat)
  /-- BRANCHZERO, R187. -/
  | branchZero (operand : Nat)
  /-- HALT, R188. -/
  | halt (operand : Nat)
  deriving DecidableEq, Repr

/-- The operand field of an instruction. -/
def Instr.operand : Instr → Nat
  | .readInt a => a
  | .writeInt a => a
  | .newline a => a
  | .readString a => a
  | .writeString a => a
  | .readDouble a => a
  | .writeDouble a => a
  | .load a => a
  | .store a => a
  | .addDouble a => a
  | .subtractDouble a => a
  | .divideDouble a => a
  | .multiplyDouble a => a
  | .remainderDouble a => a
  | .powerDouble a => a
  | .addInt a => a
  | .subtractInt a => a
  | .divideInt a => a
  | .multiplyInt a => a
  | .remainderInt a => a
  | .powerInt a => a
  | .branch a => a
  | .branchNeg a => a
  | .branchZero a => a
  | .halt a => a

/-- The mnemonic of an instruction. -/
def Instr.mnemonic : Instr → Mnemonic
  | .readInt _ => .readInt
  | .writeInt _ => .writeInt
  | .newline _ => .newline
  | .readString _ => .readString
  | .writeString _ => .writeString
  | .readDouble _ => .readDouble
  | .writeDouble _ => .writeDouble
  | .load _ => .load
  | .store _ => .store
  | .addDouble _ => .addDouble
  | .subtractDouble _ => .subtractDouble
  | .divideDouble _ => .divideDouble
  | .multiplyDouble _ => .multiplyDouble
  | .remainderDouble _ => .remainderDouble
  | .powerDouble _ => .powerDouble
  | .addInt _ => .addInt
  | .subtractInt _ => .subtractInt
  | .divideInt _ => .divideInt
  | .multiplyInt _ => .multiplyInt
  | .remainderInt _ => .remainderInt
  | .powerInt _ => .powerInt
  | .branch _ => .branch
  | .branchNeg _ => .branchNeg
  | .branchZero _ => .branchZero
  | .halt _ => .halt

/-- The instruction with a given mnemonic and operand field. -/
def Instr.ofMnemonic (m : Mnemonic) (a : Nat) : Instr :=
  match m with
  | .readInt => .readInt a
  | .writeInt => .writeInt a
  | .newline => .newline a
  | .readString => .readString a
  | .writeString => .writeString a
  | .readDouble => .readDouble a
  | .writeDouble => .writeDouble a
  | .load => .load a
  | .store => .store a
  | .addDouble => .addDouble a
  | .subtractDouble => .subtractDouble a
  | .divideDouble => .divideDouble a
  | .multiplyDouble => .multiplyDouble a
  | .remainderDouble => .remainderDouble a
  | .powerDouble => .powerDouble a
  | .addInt => .addInt a
  | .subtractInt => .subtractInt a
  | .divideInt => .divideInt a
  | .multiplyInt => .multiplyInt a
  | .remainderInt => .remainderInt a
  | .powerInt => .powerInt a
  | .branch => .branch a
  | .branchNeg => .branchNeg a
  | .branchZero => .branchZero a
  | .halt => .halt a

/-- All mnemonics, in the order of the opcode map (R64). -/
def Mnemonic.all : List Mnemonic :=
  [.readInt, .writeInt, .newline, .readString, .writeString, .readDouble, .writeDouble, .load, .store,
   .addDouble, .subtractDouble, .divideDouble, .multiplyDouble, .remainderDouble, .powerDouble,
   .addInt, .subtractInt, .divideInt, .multiplyInt, .remainderInt, .powerInt,
   .branch, .branchNeg, .branchZero, .halt]

end Sys2Proof
end

