-- ==== Sys2Proof/Config.lean ====
section
/-! DEFINITION. What is fixed for this hardware (R6) and what the spec leaves open (R9): the sizes, the enabled
opcodes, and the free values. A free value is an opaque constant: nothing can evaluate it. -/

namespace Sys2Proof

/-- The six floating-mode operations (R97). -/
inductive FloatOp where
  | add
  | subtract
  | divide
  | multiply
  | remainder
  | power
  deriving DecidableEq, Repr

namespace Config

/-- `MEMORY_SIZE`: the cells are `0 .. 999` (R6). -/
def memorySize : Nat := 1000

/-- The largest magnitude a memory word may have, `FFFFF` (`MAX_WORD`, `MIN_WORD`; R6). -/
def maxMagnitude : Nat := 0xFFFFF

/-- `OPC_DIV`, which splits an instruction word into operationCode and operand (R6). -/
def opcDiv : Nat := 0x1000

/-- `STR_DIV`, which splits a word into its upper and lower string fields (R6). -/
def strDiv : Nat := 0x100

/-- `ENABLED`: the opcodes the decoder recognises. For this hardware all 25 (R2, R9). -/
def enabled (_ : Mnemonic) : Bool := true

/-- `FArith(op, a, b)`: the result of a floating-mode operation, a Word that depends on the operation and the two
operands alone and of which nothing else is known (R9, R97, R155; log entry 8). The sign of a zero among them is dropped before it reaches a
register (R31; `Machine.floatArith`). Free. -/
opaque floatResult : FloatOp → Word → Word → Word

/-- `FromDouble(x)`: the encoding of a native floating value as a Word, of which nothing is known but that it depends
on `x` alone (R9, R98; log entry 9). The sign of a zero among them is dropped before it is stored (R31;
`Machine.encodeDouble`). Free. -/
opaque fromDouble : NativeDouble → Word

/-- `FRAC_DIGITS`: how many fraction digits a physical cell can hold; the spec leaves it open and no behaviour depends
on it (R9, decision D2; log entry 5). Free. -/
opaque fracDigits : Nat

end Config
end Sys2Proof
end

