-- ==== Sys2Proof/Machine/Codec.lean ====
section
/-! DEFINITION. The Word codec (40_word_codec.md): from and to integers, the exact value, the text form and its lenient
parser, the fixed-width text, and the string fields. -/

namespace Sys2Proof
namespace Word

/-- `fromInt(n)` (R82): sign of `n`, magnitude `|n|`, no fraction; no magnitude check. -/
def fromInt (n : Int) : Word := ⟨decide (n < 0), n.natAbs, []⟩

/-- `toInt(w)` (R83): the integer part with the sign applied; the fraction is dropped. -/
def toInt (w : Word) : Int := if w.neg then -(w.ip : Int) else (w.ip : Int)

/-- The value of fraction digits `d1 d2 … dk`: `d1/16 + d2/16^2 + … + dk/16^k` (R84). -/
def fracVal : List HexDigit → Rat
  | [] => 0
  | d :: ds => ((d.val : Rat) + fracVal ds) / 16

/-- `val(w)` (R84): the exact value, fraction included. -/
def val (w : Word) : Rat := (if w.neg then -1 else 1) * ((w.ip : Rat) + fracVal w.fr)

/-! ### The string fields (R89) -/

/-- `Upper(w)`: digits 1 to 3 of the magnitude; sign and fraction take no part (R89). -/
def upper (w : Word) : Nat := w.ip / Config.strDiv

/-- `Lower(w)`: digits 4 and 5 of the magnitude (R89). -/
def lower (w : Word) : Nat := w.ip % Config.strDiv

/-- `Pack(u, l)` (R89). -/
def pack (u l : Nat) : Word := fromInt ((u * Config.strDiv + l : Nat) : Int)

/-! ### The text form (R80, R81, R85) -/

/-- The characters of the class `0-9A-F` (R80), the one for digit `d` at place `d`. -/
def digitChars : Text := "0123456789ABCDEF".toList

/-- The upper-case character of a hexadecimal digit (R80). -/
def digitChar (d : HexDigit) : Char := digitChars.getD d.val '0'

/-- The digit a character of the class `0-9A-F` stands for; no other character stands for one (R80). -/
def charDigit (c : Char) : Option HexDigit := (List.finRange 16).find? fun d => decide (digitChar d = c)

/-- The hexadecimal digits of `n` put before `acc`, most significant first, for `n` of at most `fuel` digits. -/
def hexDigitsOnto : Nat → Nat → List HexDigit → List HexDigit
  | 0, _, acc => acc
  | fuel + 1, n, acc =>
    if n < 16 then Fin.ofNat 16 n :: acc else hexDigitsOnto fuel (n / 16) (Fin.ofNat 16 n :: acc)

/-- The hexadecimal digits of `n` without leading zeros, one digit `0` for zero (R85). -/
def hexDigits (n : Nat) : List HexDigit := hexDigitsOnto (n + 1) n []

/-- The value of digits in base 16, 0 for none (R81). -/
def ofDigits (ds : List HexDigit) : Nat := ds.foldl (fun n d => 16 * n + d.val) 0

/-- The sign character (R80). -/
def signChar (w : Word) : Char := if w.neg then '-' else '+'

/-- The natural text of a Word after its sign: the integer digits and, when there is a fraction, the point and the
fraction digits (R85). -/
def textBody (w : Word) : Text :=
  (hexDigits w.ip).map digitChar ++ (if w.fr = [] then [] else '.' :: w.fr.map digitChar)

/-- `getString(w, n)` (R85): the natural text, with zero digits put in after the sign until it has `n` characters; a
text that already has `n` or more is unchanged. -/
def getString (w : Word) (n : Nat) : Text :=
  signChar w :: (List.replicate (n - (w.textBody.length + 1)) '0' ++ w.textBody)

/-- The digits that every character of a text stands for; `none` when some character stands for none. -/
def parseDigits : Text → Option (List HexDigit)
  | [] => some []
  | c :: cs =>
    match charDigit c, parseDigits cs with
    | some d, some ds => some (d :: ds)
    | _, _ => none

/-- The integer digits and the fraction digits of a text without its sign: all of it where there is no point; before
and after the first point where there is one (a second point is no digit and is a violation; R81). -/
def parseBody (t : Text) : Option (List HexDigit × List HexDigit) :=
  match parseDigits (t.takeWhile (· ≠ '.')), parseDigits ((t.dropWhile (· ≠ '.')).drop 1) with
  | some i, some f => some (i, f)
  | _, _ => none

/-- `ParseWord(text)` (R81): the lenient parser. Any violation gives `ZERO` and nothing is raised. -/
def parseWord (t : Text) : Word :=
  match t with
  | [] => zero
  | c :: body =>
    if c = '+' ∨ c = '-' then
      match parseBody body with
      | some (i, f) => ⟨decide (c = '-'), ofDigits i, f⟩
      | none => zero
    else zero

end Word
end Sys2Proof
end

