-- ==== Sys2Proof/WellFormed.lean ====
section
/-! DEFINITION. When an instruction is well formed: its operand fits the operand field. -/

namespace Sys2Proof

/-- The operand field has three hexadecimal digits, 0x000 to 0xFFF (R61). Every value of it is legal for every
instruction as an encoding: NEWLINE and HALT ignore it (R66), a branch target is not validated (R185), and an operand
that is no cell is a fault of the cycle, not of the encoding (R115). -/
def Instr.wellFormed (i : Instr) : Bool := decide (i.operand < 0x1000)

end Sys2Proof
end

