-- ==== Sys2Proof/Decode.lean ====
section
/-! DEFINITION. Decoding and encoding (30_encoding.md). Decoding is arithmetic on the integer value of the fetched Word
(R63) and then a look-up of the opcode in the opcode map (R64); it is total and rejects by name. The opcode numbers are a
table of their own (`opcodeNumber`), and decoder and encoder take such a table, so that the other reading of the source's
`Code` column can be put in its place (R8, decision D1; log entry 6). -/

namespace Sys2Proof

/-! ### The opcode map (R64) -/

/-- The opcode numbers of R64: the two characters of the source's `Code` column as hexadecimal digits (decision D1). -/
def opcodeNumber : Mnemonic → Nat
  | .readInt => 0x10
  | .writeInt => 0x11
  | .newline => 0x12
  | .readString => 0x13
  | .writeString => 0x14
  | .readDouble => 0x15
  | .writeDouble => 0x16
  | .load => 0x20
  | .store => 0x21
  | .addDouble => 0x24
  | .subtractDouble => 0x25
  | .divideDouble => 0x26
  | .multiplyDouble => 0x27
  | .remainderDouble => 0x28
  | .powerDouble => 0x29
  | .addInt => 0x30
  | .subtractInt => 0x31
  | .divideInt => 0x32
  | .multiplyInt => 0x33
  | .remainderInt => 0x34
  | .powerInt => 0x35
  | .branch => 0x40
  | .branchNeg => 0x41
  | .branchZero => 0x42
  | .halt => 0x43

/-- The other numbering (92_eei_decisions.md, alternative opcode table for D1): the `Code` column as decimal numbers.
Not this hardware's; it is here so that the table can be exchanged. -/
def opcodeNumberDecimal : Mnemonic → Nat
  | .readInt => 10
  | .writeInt => 11
  | .newline => 12
  | .readString => 13
  | .writeString => 14
  | .readDouble => 15
  | .writeDouble => 16
  | .load => 20
  | .store => 21
  | .addDouble => 24
  | .subtractDouble => 25
  | .divideDouble => 26
  | .multiplyDouble => 27
  | .remainderDouble => 28
  | .powerDouble => 29
  | .addInt => 30
  | .subtractInt => 31
  | .divideInt => 32
  | .multiplyInt => 33
  | .remainderInt => 34
  | .powerInt => 35
  | .branch => 40
  | .branchNeg => 41
  | .branchZero => 42
  | .halt => 43

/-! ### Decoding -/

/-- Why a Word is no instruction. In the machine each of them is the fault `InvalidOpcode` (R65, R118). -/
inductive Reject where
  /-- The opcode is none of the opcode map's: an unused value, or a negative one (a negative Word; R65). -/
  | unknownOpcode (c : Int)
  /-- The operand is negative: only a negative Word has one (R63), and no negative Word is an instruction (R65). -/
  | negativeOperand (t : Int)
  deriving DecidableEq, Repr

/-- operationCode of a Word: its integer value divided by 0x1000, truncating toward zero (R63, decision D4). -/
def opcodeField (w : Word) : Int := w.toInt.tdiv Config.opcDiv

/-- operand of a Word: the remainder of that division, with the sign of the dividend (R63, decision D4). -/
def operandField (w : Word) : Int := w.toInt.tmod Config.opcDiv

/-- The enabled mnemonic that has opcode `c` in the opcode map `num` (R64, R9). -/
def mnemonicOf (num : Mnemonic → Nat) (c : Int) : Option Mnemonic :=
  Mnemonic.all.find? (fun m => Config.enabled m && decide ((num m : Int) = c))

/-- The instruction with operationCode `c` and operand `t` (R63, R64, R65). -/
def decodeFieldsWith (num : Mnemonic → Nat) (c t : Int) : Except Reject Instr :=
  match mnemonicOf num c with
  | none => .error (.unknownOpcode c)
  | some m => if t < 0 then .error (.negativeOperand t) else .ok (.ofMnemonic m t.toNat)

/-- The instruction with operationCode `c` and operand `t` under the opcode map of this hardware. -/
def decodeFields (c t : Int) : Except Reject Instr := decodeFieldsWith opcodeNumber c t

/-- The instruction a Word stands for under the opcode map `num`. -/
def decodeWith (num : Mnemonic → Nat) (w : Word) : Except Reject Instr :=
  decodeFieldsWith num (opcodeField w) (operandField w)

/-- The instruction a Word stands for (R63, R64). -/
def decode (w : Word) : Except Reject Instr := decodeWith opcodeNumber w

/-! ### Encoding -/

/-- The Word `sOOAAA` of an instruction, with sign `+`, under the opcode map `num` (R61). -/
def encodeWith (num : Mnemonic → Nat) (i : Instr) : Word :=
  ⟨false, num i.mnemonic * Config.opcDiv + i.operand, []⟩

/-- The Word of an instruction (R61, R64). -/
def encode (i : Instr) : Word := encodeWith opcodeNumber i

/-! ### The binary layout of a cell (R62, decision D2) -/

/-- The bits of a physical cell: 21, and four for each fraction digit it can hold (R62). -/
def cellWidth : Nat := 21 + 4 * Config.fracDigits

/-- The Word of the 21 bits of a cell without fraction: bit 20 the sign, bits 19 to 0 the magnitude (R62). -/
def Word.ofCell (b : BitVec 21) : Word := ⟨b.getLsbD 20, (b.extractLsb' 0 20).toNat, []⟩

/-- The 21 bits of a Word without fraction whose magnitude is at most `FFFFF` (R62). -/
def Word.toCell (w : Word) : BitVec 21 := BitVec.ofBool w.neg ++ BitVec.ofNat 20 w.ip

/-- The instruction the decoder reads from the bits of spec/opcode_table.json: the 21 bits of a cell, bit 0 the least
significant (R62). A cell has no bits above bit 20, so those of `w` are no part of it (log entry 5). -/
def decodeTableWord (_nbits w : Nat) : Option Instr :=
  match decode (Word.ofCell (BitVec.ofNat 21 w)) with
  | .ok i => some i
  | .error _ => none

end Sys2Proof
end

