-- ==== Sys2Proof/Machine/Flags.lean ====
section
/-! DEFINITION. The tests on Words. The machine has no status flag and no condition code (R28): overflow, sign and zero
are predicates evaluated on a Word where a rule asks for them. All are on the exact value `val` (R43, R86; decision D9),
written here on the digits, so that they are plain computations; Obligations.OverflowTestIsTheValueBound and
Obligations.ZeroAndSignTestsAreOnTheExactValue state that the two agree. After them: the sign of a computed zero (R31) and
the comparison of two Words (R86). -/

namespace Sys2Proof
namespace Word

/-- Some fraction digit is not zero. -/
def fracNonzero (w : Word) : Bool := w.fr.any (fun d => decide (d ≠ 0))

/-- `Overflow(w)` (R43): `ip > 0xFFFFF`, or `ip = 0xFFFFF` and some fraction digit is not zero. -/
def overflow (w : Word) : Bool :=
  decide (Config.maxMagnitude < w.ip) || (decide (w.ip = Config.maxMagnitude) && w.fracNonzero)

/-- `val(w) = 0`: integer part zero and every fraction digit zero; `-0` counts (R158, R187). -/
def isZero (w : Word) : Bool := decide (w.ip = 0) && !w.fracNonzero

/-- `val(w) < 0` (R186): the value, not the sign character; `-0` is not negative. -/
def isNegative (w : Word) : Bool := w.neg && !w.isZero

/-- A zero with the sign `-` (R31). -/
def isNegativeZero (w : Word) : Bool := w.neg && w.isZero

/-- A computed Word with the sign of a zero dropped: every computed zero has the sign `+` (R31, decision D11). The fraction
digits stay as they are. -/
def plusZero (w : Word) : Word := if w.isZero then { w with neg := false } else w

/-! ### Comparison (R86): by the exact value, not by the text form or by the triple -/

/-- `compareTo` (R86). -/
def compareTo (a b : Word) : Ordering := if a.val < b.val then .lt else if a.val = b.val then .eq else .gt

/-- `equals` (R86). Equality of the triples, Lean's own `=`, is finer: it tells `-0` from `+0`. -/
def equals (a b : Word) : Bool := decide (a.val = b.val)

end Word
end Sys2Proof
end

