-- ==== Sys2Proof/Machine/State.lean ====
section
/-! DEFINITION. The state of the machine (10_state.md), the reasons a step can stop, and reset. -/

namespace Sys2Proof
namespace Machine

/-- The five fault kinds (R200). A fault of this machine ends the run in a state that can be looked at (R208), so it is
a NEXT state with `RUN = Faulted(k)`: no step answers `Host.Outcome.fault` (log entry 1). Each is raised where the spec
raises it, so none is a difference from the hardware (safe). -/
inductive Fault where
  /-- Raised by step 5 of the cycle, and by `memRead` and `memWrite` in a string transfer that reaches address 1000
  (R201). Safe. -/
  | addressOutOfBounds
  /-- Raised by step 4 of the cycle for the accumulator, by `memWrite` for the Word to be stored, and by `memRead` for
  the cell read (R202). Safe. -/
  | wordOverflow
  /-- Raised by DIVIDE and REMAINDER of both modes for a divisor that decodes to zero (R203). Safe. -/
  | divisionByZero
  /-- Raised by the dispatch for a Word that is no instruction (R204). Safe. -/
  | invalidOpcode
  /-- Raised by step 1 of the cycle (R205). Safe. -/
  | programCounterOutOfBounds
  deriving DecidableEq, Repr

/-- Why the model gives an instruction no next state. -/
inductive Refusal where
  /-- Raised by `exec` for an instruction whose meaning is not written. Safe. No arm of `exec` raises it. -/
  | notModelled (mnemonic : String)
  /-- Raised by the three READ-class instructions when the first input token is of another type than the one asked
  for: the host contract of R139 excludes it and 93_implementation_defined.md U8 says to refuse (log entry 10). Safe. -/
  | wrongTokenType
  /-- Raised by POWER_INT for `0` to a negative power, which has no value: R176 says that the model refuses, decision D5 and
  93_implementation_defined.md U4 the same (log entry 7). Safe. -/
  | zeroToNegativePower
  deriving DecidableEq, Repr

/-- The run-state register `RUN` (R27). -/
inductive RunState where
  | running
  | halted
  | faulted (k : Fault)
  deriving DecidableEq, Repr

/-- An input token (R139): an integer, a native floating value, or a string of character codes 0 to 255. -/
inductive Token where
  | int (n : Int)
  | double (x : NativeDouble)
  | string (s : List (Fin 256))
  deriving DecidableEq, Repr

/-- An output event (R140). -/
inductive Event where
  | int (n : Int)
  | double (w : Word)
  | char (c : Nat)
  | newline
  deriving DecidableEq, Repr

/-- The memory array as the list of the cells that do not hold `ZERO`, by rising address: an unlisted cell holds `ZERO`,
the reset contents (R33, decision D8; log entry 3). The form is `Memory.wf` (Machine/Ops.lean). -/
abbrev Memory := List (Nat × Word)

/-- The state: the five registers, `RUN` and the memory array (R20), and the two host-side sequences (R30). -/
structure State where
  /-- `ACC`, the accumulator (R23). -/
  acc : Word
  /-- `IC`, the instruction counter (R24). -/
  ic : Word
  /-- `IR`, the instruction register (R25). -/
  ir : Word
  /-- `OPC`, operationCode (R26). -/
  opc : Word
  /-- `OPD`, operand (R26). -/
  opd : Word
  /-- `RUN`, the run-state register (R27). -/
  run : RunState
  /-- `M`, the memory array (R30). -/
  mem : Memory
  /-- `Input`, the tokens not yet consumed, first to be consumed first (R30, R139). -/
  input : List Token
  /-- `Output`, the events emitted, in program order (R30, R140). -/
  output : List Event
  deriving DecidableEq, Repr

/-- The machine right after reset (R33, R34, R230). `Input` is whatever the host will supply; here nothing yet
(log entry 2). -/
def State.reset : State :=
  { acc := .zero, ic := .zero, ir := .zero, opc := .zero, opd := .zero, run := .running, mem := [], input := [],
    output := [] }

/-- What a meaning and a step answer. -/
abbrev Result := Host.Outcome State Fault Refusal

end Machine
end Sys2Proof
end

