-- ==== Sys2Proof/Machine/Ops.lean ====
section
/-! DEFINITION. The operations the instructions share: the memory array and its two checked primitives (20_memory.md),
taking a fault (R208), the advance of the instruction counter (R117), and the two ports (R139, R140). -/

namespace Sys2Proof
namespace Machine

/-! ### The memory array -/

/-- What a cell that is not listed holds: `ZERO`, the reset contents (R34, decision D8; log entry 3). -/
def Memory.unlisted : Word := .zero

/-- The Word in cell `a`. -/
def Memory.get : Memory → Nat → Word
  | [], _ => unlisted
  | (b, w) :: m, a => if a = b then w else get m a

/-- The memory with `w` in cell `a`, in the canonical form. -/
def Memory.set : Memory → Nat → Word → Memory
  | [], a, w => if w = unlisted then [] else [(a, w)]
  | (b, v) :: m, a, w =>
    if a < b then (if w = unlisted then (b, v) :: m else (a, w) :: (b, v) :: m)
    else if a = b then (if w = unlisted then m else (a, w) :: m)
    else (b, v) :: set m a w

/-- Addresses rise strictly from `lo`, each is one of the 1000 cells, and no listed cell holds what an unlisted one
holds. -/
def Memory.wfFrom (lo : Nat) : Memory → Bool
  | [] => true
  | (a, w) :: m => decide (lo ≤ a) && decide (a < Config.memorySize) && decide (w ≠ unlisted) && wfFrom (a + 1) m

/-- The canonical form of the memory array. -/
def Memory.wf (m : Memory) : Bool := wfFrom 0 m

/-- No listed cell is out of the range of a stored word (R30; an unlisted cell holds `ZERO`, which is in range). -/
def Memory.inRange (m : Memory) : Bool := m.all (fun c => !c.2.overflow)

/-- `M[a]`, the raw cell (R14): no check. -/
def State.cell (s : State) (a : Nat) : Word := s.mem.get a

/-- An address is legal when it is one of the 1000 cells (R44). The test is on the integer; nothing wraps. -/
def inBounds (addr : Int) : Bool := decide (0 ≤ addr) && decide (addr < Config.memorySize)

/-- `MemRead(addr)` (R41): bounds, then magnitude, then a copy of the cell. -/
def memRead (addr : Int) (s : State) : Except Fault Word :=
  if inBounds addr then
    if (s.cell addr.toNat).overflow then .error .wordOverflow else .ok (s.cell addr.toNat)
  else .error .addressOutOfBounds

/-- `MemWrite(addr, w)` (R42): bounds, then magnitude, then the whole Word into the cell. -/
def memWrite (addr : Int) (w : Word) (s : State) : Except Fault State :=
  if inBounds addr then
    if w.overflow then .error .wordOverflow else .ok { s with mem := s.mem.set addr.toNat w }
  else .error .addressOutOfBounds

/-! ### Faults and the end of a cycle -/

/-- `raise K` (R15, R208): the run ends in `Faulted(K)`. Every write made so far is in the state it is given and stays;
nothing is saved and `IC` is not advanced. There is no return from a fault (R210): no operation undoes this one. -/
def raise (k : Fault) (s : State) : State := { s with run := .faulted k }

/-- `next`: step 7 of an instruction that is no branch and not HALT (R117). Nothing is checked and nothing wraps (R24). -/
def advance (s : State) : State := { s with ic := .fromInt (s.ic.toInt + 1) }

/-- Step 7 of a branch that is taken: `IC` becomes the operand (R117, R185); the target is not checked. -/
def branchTo (target : Nat) (s : State) : State := { s with ic := .fromInt target }

/-- The end of an instruction whose result replaces the accumulator. -/
def finishAcc (w : Word) (s : State) : Result := .next (advance { s with acc := w })

/-- Read a cell and go on with its Word, or raise the fault of the read. -/
def withCell (addr : Int) (s : State) (f : Word → Result) : Result :=
  match memRead addr s with
  | .ok w => f w
  | .error k => .next (raise k s)

/-- Store a Word and go on, or raise the fault of the store. -/
def withStore (addr : Int) (w : Word) (s : State) (f : State → Result) : Result :=
  match memWrite addr w s with
  | .ok s' => f s'
  | .error k => .next (raise k s)

/-- A sequence of accesses: its last state, or the fault that cut it and the state with what was done before. -/
abbrev Transfer := Except (Fault × State) State

/-- The end of an instruction whose effect is a transfer (R133, R134). -/
def finishTransfer : Transfer → Result
  | .ok s => .next (advance s)
  | .error (k, s) => .next (raise k s)

/-! ### The ports -/

/-- `Out(e)` (R16, R140): append an event to the output. -/
def emit (e : Event) (s : State) : State := { s with output := s.output ++ [e] }

/-- What a request to the input port gives. -/
inductive Request (α : Type) where
  /-- No token is there (R120, R139). -/
  | blocked
  /-- The first token is of another type, which the host contract excludes (R139). -/
  | wrongType
  /-- The token, and the state with it consumed. -/
  | token (x : α) (s : State)

/-- `In.int()` (R139). -/
def inInt (s : State) : Request Int :=
  match s.input with
  | [] => .blocked
  | .int n :: rest => .token n { s with input := rest }
  | .double _ :: _ => .wrongType
  | .string _ :: _ => .wrongType

/-- `In.double()` (R139). -/
def inDouble (s : State) : Request NativeDouble :=
  match s.input with
  | [] => .blocked
  | .double x :: rest => .token x { s with input := rest }
  | .int _ :: _ => .wrongType
  | .string _ :: _ => .wrongType

/-- `In.string()` (R139). -/
def inString (s : State) : Request (List (Fin 256)) :=
  match s.input with
  | [] => .blocked
  | .string cs :: rest => .token cs { s with input := rest }
  | .int _ :: _ => .wrongType
  | .double _ :: _ => .wrongType

/-- A READ-class instruction: with a token, go on; without one, wait. While it waits it does nothing (R120): the state
is as it stands, `RUN` is `Running`, `IC` still names this instruction, and the next step tries again (log entry 11). -/
def withToken {α : Type} (r : Request α) (s : State) (f : α → State → Result) : Result :=
  match r with
  | .blocked => .next s
  | .wrongType => .refused .wrongTokenType
  | .token x s' => f x s'

end Machine
end Sys2Proof
end

