-- ==== Sys2Proof/Machine/Operands.lean ====
section
/-! DEFINITION. The operand of an instruction. There is one addressing mode, absolute: the operand field is the cell
index or the branch target as it stands (R63, R150); there is no immediate, no index and no indirection (R152). -/

namespace Sys2Proof

/-- `NeedsAddress` (R115, decision D6): the 20 instructions whose handler reads or writes `M[t]`. -/
def Instr.needsAddress : Instr → Bool
  | .readInt _ => true
  | .writeInt _ => true
  | .newline _ => false
  | .readString _ => true
  | .writeString _ => true
  | .readDouble _ => true
  | .writeDouble _ => true
  | .load _ => true
  | .store _ => true
  | .addDouble _ => true
  | .subtractDouble _ => true
  | .divideDouble _ => true
  | .multiplyDouble _ => true
  | .remainderDouble _ => true
  | .powerDouble _ => true
  | .addInt _ => true
  | .subtractInt _ => true
  | .divideInt _ => true
  | .multiplyInt _ => true
  | .remainderInt _ => true
  | .powerInt _ => true
  | .branch _ => false
  | .branchNeg _ => false
  | .branchZero _ => false
  | .halt _ => false

namespace Machine

/-- Step 5 (R115) passes: the operand is a cell, or the instruction needs none. -/
def operandOk (i : Instr) : Bool := !i.needsAddress || inBounds i.operand

end Machine
end Sys2Proof
end

