-- ==== Sys2Proof/Machine/Cycle.lean ====
section
/-! DEFINITION. Steps 1 to 5 of the cycle (41_cycle.md): the check of the instruction counter, the fetch, the decode into
`OPC` and `OPD`, the check of the accumulator and the check of the operand. -/

namespace Sys2Proof
namespace Machine

/-- Steps 1 and 2 (R111, R112): check `IC` as an address, then `IR <- MemRead(toInt(IC))`. When either raises, nothing
has been written. -/
def fetch (s : State) : Except Fault State :=
  if inBounds s.ic.toInt then
    match memRead s.ic.toInt s with
    | .ok w => .ok { s with ir := w }
    | .error k => .error k
  else .error .programCounterOutOfBounds

/-- Step 3 (R113): `OPC` and `OPD` from `IR`. -/
def decodeRegisters (s : State) : State :=
  { s with opc := .fromInt (opcodeField s.ir), opd := .fromInt (operandField s.ir) }

/-- Steps 4 and 5 and the look-up of step 6, in this order (R209): the accumulator's magnitude (R114), then the opcode
from `OPC`, and for a recognised one the operand from `OPD` (R115). The operand of an unrecognised opcode is not looked
at, so its fault cannot meet `InvalidOpcode` (R118, decision D7). -/
def checkAndSelect (s : State) : Except Fault Instr :=
  if s.acc.overflow then .error .wordOverflow
  else
    match decodeFields s.opc.toInt s.opd.toInt with
    | .error _ => .error .invalidOpcode
    | .ok i => if operandOk i then .ok i else .error .addressOutOfBounds

/-- The state after steps 1 to 3 when the Word `w` is fetched. -/
def State.fetched (s : State) (w : Word) : State := decodeRegisters { s with ir := w }

/-- The state in which step 6 runs an instruction of `s`: steps 1 to 3 have been done on the Word `IC` points at. -/
def State.front (s : State) : State := s.fetched (s.cell s.ic.toInt.toNat)

end Machine
end Sys2Proof
end

