-- ==== Sys2Proof/Machine/Alu.lean ====
section
/-! DEFINITION. The ALU: the integer-mode operations (R90 to R96), exact in `Z`, and the floating-mode operations and the
encoding of native values, whose results are free but for the sign of a zero (R97, R98, R31). No operation here raises
anything (R99). -/

namespace Sys2Proof

/-- The six integer-mode operations (R90). -/
inductive IntOp where
  | add
  | subtract
  | divide
  | multiply
  | mod
  | exponent
  deriving DecidableEq, Repr

namespace Machine

/-- `x ^ y` in integer mode (R96, decision D5): the exact power for `y ≥ 0`; for `y < 0` the exact rational truncated
toward zero, by cases on `x`. `0 ^ y` with `y < 0` has no value, and the machine asks for none (R176; log entry 7). -/
def intPower (x y : Int) : Int :=
  if 0 ≤ y then Int.pow x y.toNat
  else if x = 1 then 1
  else if x = -1 then (if y % 2 = 0 then 1 else -1)
  else 0

/-- The operation on integers. Division truncates toward zero and the remainder has the sign of the dividend (R94, R95,
decision D4); with a zero divisor neither has a value and the machine asks for none (R94). -/
def intOp (op : IntOp) (x y : Int) : Int :=
  match op with
  | .add => x + y
  | .subtract => x - y
  | .divide => x.tdiv y
  | .multiply => x * y
  | .mod => x.tmod y
  | .exponent => intPower x y

/-- `IArith(op, a, b)` (R90): both operands decoded with `toInt`, the exact result encoded again, whatever its size. -/
def intArith (op : IntOp) (a b : Word) : Word := .fromInt (intOp op a.toInt b.toInt)

/-- `FArith(op, a, b)` (R97, R155): a free Word for each operation and pair of operands (log entry 8), but no negative
zero, which no arithmetic produces (R31). -/
def floatArith (op : FloatOp) (a b : Word) : Word := (Config.floatResult op a b).plusZero

/-- `FromDouble(x)` (R98): a free Word for each native value (log entry 9), but no negative zero, which only a loaded
literal brings in (R31). -/
def encodeDouble (x : NativeDouble) : Word := (Config.fromDouble x).plusZero

end Machine
end Sys2Proof
end

