-- ==== Sys2Proof/Machine/ArithDouble.lean ====
section
/-! DEFINITION. The floating-mode arithmetic instructions, opcodes 24 to 29 (44_arith_double.md). -/

namespace Sys2Proof
namespace Machine

/-- The accumulator and a cell, in floating mode, into the accumulator (R155). -/
def floatIntoAcc (op : FloatOp) (a : Nat) (s : State) : Result :=
  withCell a s fun m => finishAcc (floatArith op s.acc m) s

/-- The same, after the check that the divisor's exact value is not zero (R158, R160, decision D24). -/
def floatDivideIntoAcc (op : FloatOp) (a : Nat) (s : State) : Result :=
  withCell a s fun m =>
    if m.isZero then .next (raise .divisionByZero s) else finishAcc (floatArith op s.acc m) s

/-- ADD_DOUBLE (R156). -/
def execAddDouble (a : Nat) (s : State) : Result := floatIntoAcc .add a s

/-- SUBTRACT_DOUBLE (R157). -/
def execSubtractDouble (a : Nat) (s : State) : Result := floatIntoAcc .subtract a s

/-- DIVIDE_DOUBLE (R158). -/
def execDivideDouble (a : Nat) (s : State) : Result := floatDivideIntoAcc .divide a s

/-- MULTIPLY_DOUBLE (R159). -/
def execMultiplyDouble (a : Nat) (s : State) : Result := floatIntoAcc .multiply a s

/-- REMAINDER_DOUBLE (R160). -/
def execRemainderDouble (a : Nat) (s : State) : Result := floatDivideIntoAcc .remainder a s

/-- POWER_DOUBLE (R161): the accumulator is the base; there is no check. -/
def execPowerDouble (a : Nat) (s : State) : Result := floatIntoAcc .power a s

end Machine
end Sys2Proof
end

