-- ==== Sys2Proof/Machine/ArithInt.lean ====
section
/-! DEFINITION. The integer-mode arithmetic instructions, opcodes 30 to 35 (45_arith_int.md). The result is exact and
goes into the accumulator whatever its size; the next cycle checks it (R170). -/

namespace Sys2Proof
namespace Machine

/-- The accumulator and a cell, in integer mode, into the accumulator (R170). -/
def intIntoAcc (op : IntOp) (a : Nat) (s : State) : Result :=
  withCell a s fun m => finishAcc (intArith op s.acc m) s

/-- The same, after the check that the divisor's integer part is not zero (R173, R175, decision D24). -/
def intDivideIntoAcc (op : IntOp) (a : Nat) (s : State) : Result :=
  withCell a s fun m =>
    if m.toInt = 0 then .next (raise .divisionByZero s) else finishAcc (intArith op s.acc m) s

/-- ADD_INT (R171). -/
def execAddInt (a : Nat) (s : State) : Result := intIntoAcc .add a s

/-- SUBTRACT_INT (R172): accumulator minus memory. -/
def execSubtractInt (a : Nat) (s : State) : Result := intIntoAcc .subtract a s

/-- DIVIDE_INT (R173). -/
def execDivideInt (a : Nat) (s : State) : Result := intDivideIntoAcc .divide a s

/-- MULTIPLY_INT (R174). -/
def execMultiplyInt (a : Nat) (s : State) : Result := intIntoAcc .multiply a s

/-- REMAINDER_INT (R175). -/
def execRemainderInt (a : Nat) (s : State) : Result := intDivideIntoAcc .mod a s

/-- POWER_INT (R176): the accumulator is the base; there is no check of the machine's own, `DivisionByZero` included. `0` to
a negative power has no value and is refused (R176, decision D5, 93_implementation_defined.md U4; log entry 7). -/
def execPowerInt (a : Nat) (s : State) : Result :=
  withCell a s fun m =>
    if s.acc.toInt = 0 ∧ m.toInt < 0 then .refused .zeroToNegativePower else finishAcc (intArith .exponent s.acc m) s

end Machine
end Sys2Proof
end

