-- ==== Sys2Proof/Machine/Control.lean ====
section
/-! DEFINITION. The branches and HALT, opcodes 40 to 43 (46_control.md). -/

namespace Sys2Proof
namespace Machine

/-- BRANCH (R185). -/
def execBranch (a : Nat) (s : State) : Result := .next (branchTo a s)

/-- BRANCHNEG (R186): on the value of the accumulator, not its sign character. -/
def execBranchNeg (a : Nat) (s : State) : Result :=
  if s.acc.isNegative then .next (branchTo a s) else .next (advance s)

/-- BRANCHZERO (R187): `+0` and `-0` both branch. -/
def execBranchZero (a : Nat) (s : State) : Result :=
  if s.acc.isZero then .next (branchTo a s) else .next (advance s)

/-- HALT (R188): the operand is ignored and `IC` is not changed. -/
def execHalt (s : State) : Result := .next { s with run := .halted }

end Machine
end Sys2Proof
end

