-- ==== Sys2Proof/Machine/Strings.lean ====
section
/-! DEFINITION. The string codec: `StoreString` (R137) and `PrintString` (R138). -/

namespace Sys2Proof
namespace Machine

/-- The Words that hold the characters after the first: two in a Word, and the last alone with a zero lower field when
one is left over (R137). -/
def packPairs : List (Fin 256) → List Word
  | [] => []
  | [c] => [.pack c.val 0]
  | c :: d :: rest => .pack c.val d.val :: packPairs rest

/-- The Words of a packed string: `ZERO` for the empty one; else the length and the first character, then the rest in
pairs (R137). -/
def packString : List (Fin 256) → List Word
  | [] => [.zero]
  | c :: rest => .pack (rest.length + 1) c.val :: packPairs rest

/-- Store Words at ascending addresses, each through the checked store; a fault leaves the earlier ones written (R47,
R137). -/
def storeWords : Int → List Word → State → Transfer
  | _, [], s => .ok s
  | t, w :: ws, s =>
    match memWrite t w s with
    | .error k => .error (k, s)
    | .ok s' => storeWords (t + 1) ws s'

/-- `StoreString(t, s)` (R137). -/
def storeString (t : Int) (cs : List (Fin 256)) (s : State) : Transfer := storeWords t (packString cs) s

/-- The loop of `PrintString`: `n` characters are still to be emitted and the next Word is in cell `a`. The count is
tested after every character (R138, decision D17). -/
def printRest : Nat → Int → State → Transfer
  | 0, _, s => .ok s
  | 1, a, s =>
    match memRead a s with
    | .error k => .error (k, s)
    | .ok w => .ok (emit (.char w.upper) s)
  | n + 2, a, s =>
    match memRead a s with
    | .error k => .error (k, s)
    | .ok w =>
      if w.lower = 0 then printRest (n + 1) (a + 1) (emit (.char w.upper) s)
      else printRest n (a + 1) (emit (.char w.lower) (emit (.char w.upper) s))

/-- `PrintString(t)` (R138): the length and the first character from the first Word, then the rest. -/
def printString (t : Int) (s : State) : Transfer :=
  match memRead t s with
  | .error k => .error (k, s)
  | .ok w => if w.upper = 0 then .ok s else printRest (w.upper - 1) (t + 1) (emit (.char w.lower) s)

end Machine
end Sys2Proof
end

