-- ==== Sys2Proof/Machine/Io.lean ====
section
/-! DEFINITION. The input and output instructions, opcodes 10 to 16 (42_io.md). `a` is the operand; the checks of steps 1
to 5 stand before the dispatch (Machine/Cycle.lean). -/

namespace Sys2Proof
namespace Machine

/-- READ_INT (R130). The token is consumed before the store is checked. -/
def execReadInt (a : Nat) (s : State) : Result :=
  withToken (inInt s) s fun n s' => withStore a (.fromInt n) s' fun t => .next (advance t)

/-- WRITE_INT (R131): the integer part, the fraction dropped. -/
def execWriteInt (a : Nat) (s : State) : Result :=
  withCell a s fun w => .next (advance (emit (.int w.toInt) s))

/-- NEWLINE (R132): the operand is ignored. -/
def execNewline (s : State) : Result := .next (advance (emit .newline s))

/-- READSTRING (R133). -/
def execReadString (a : Nat) (s : State) : Result :=
  withToken (inString s) s fun cs s' => finishTransfer (storeString a cs s')

/-- WRITESTRING (R134). -/
def execWriteString (a : Nat) (s : State) : Result := finishTransfer (printString a s)

/-- READ_DOUBLE (R135): the encoding of the value is free (R98; log entry 9). -/
def execReadDouble (a : Nat) (s : State) : Result :=
  withToken (inDouble s) s fun x s' => withStore a (encodeDouble x) s' fun t => .next (advance t)

/-- WRITE_DOUBLE (R136): the event carries the Word itself. -/
def execWriteDouble (a : Nat) (s : State) : Result :=
  withCell a s fun w => .next (advance (emit (.double w) s))

end Machine
end Sys2Proof
end

