-- ==== Sys2Proof/Machine/LoadStore.lean ====
section
/-! DEFINITION. LOAD and STORE, opcodes 20 and 21 (43_load_store.md). -/

namespace Sys2Proof
namespace Machine

/-- LOAD (R150): a copy of the whole Word. -/
def execLoad (a : Nat) (s : State) : Result := withCell a s fun w => finishAcc w s

/-- STORE (R151): the accumulator into the cell, and then `ZERO` into the accumulator, whatever it held. -/
def execStore (a : Nat) (s : State) : Result := withStore a s.acc s fun t => finishAcc .zero t

end Machine
end Sys2Proof
end

