-- ==== Sys2Proof/Machine/Dispatch.lean ====
section
/-! DEFINITION. The dispatch (R116): steps 6 and 7 of the cycle, one meaning per instruction. The state it is given is the
one steps 1 to 5 leave (Machine/Cycle.lean). -/

namespace Sys2Proof
namespace Machine

def exec (i : Instr) (s : State) : Host.Outcome State Fault Refusal :=
  match i with
  | .readInt a => Sys2Proof.Machine.execReadInt a s
  | .writeInt a => Sys2Proof.Machine.execWriteInt a s
  | .newline _ => Sys2Proof.Machine.execNewline s
  | .readString a => Sys2Proof.Machine.execReadString a s
  | .writeString a => Sys2Proof.Machine.execWriteString a s
  | .readDouble a => Sys2Proof.Machine.execReadDouble a s
  | .writeDouble a => Sys2Proof.Machine.execWriteDouble a s
  | .load a => Sys2Proof.Machine.execLoad a s
  | .store a => Sys2Proof.Machine.execStore a s
  | .addDouble a => Sys2Proof.Machine.execAddDouble a s
  | .subtractDouble a => Sys2Proof.Machine.execSubtractDouble a s
  | .divideDouble a => Sys2Proof.Machine.execDivideDouble a s
  | .multiplyDouble a => Sys2Proof.Machine.execMultiplyDouble a s
  | .remainderDouble a => Sys2Proof.Machine.execRemainderDouble a s
  | .powerDouble a => Sys2Proof.Machine.execPowerDouble a s
  | .addInt a => Sys2Proof.Machine.execAddInt a s
  | .subtractInt a => Sys2Proof.Machine.execSubtractInt a s
  | .divideInt a => Sys2Proof.Machine.execDivideInt a s
  | .multiplyInt a => Sys2Proof.Machine.execMultiplyInt a s
  | .remainderInt a => Sys2Proof.Machine.execRemainderInt a s
  | .powerInt a => Sys2Proof.Machine.execPowerInt a s
  | .branch a => Sys2Proof.Machine.execBranch a s
  | .branchNeg a => Sys2Proof.Machine.execBranchNeg a s
  | .branchZero a => Sys2Proof.Machine.execBranchZero a s
  | .halt _ => Sys2Proof.Machine.execHalt s

end Machine
end Sys2Proof
end

