-- ==== Sys2Proof/Machine/Step.lean ====
section
/-! DEFINITION. One step of the machine: one cycle in `Running` (R121), nothing in `Halted` and `Faulted` (R119). -/

namespace Sys2Proof
namespace Machine

/-- `Cycle()` (R121): steps 1 to 5, each of which may raise a fault, then the dispatch. -/
def cycle (s : State) : Result :=
  match fetch s with
  | .error k => .next (raise k s)
  | .ok f =>
    match checkAndSelect (decodeRegisters f) with
    | .error k => .next (raise k (decodeRegisters f))
    | .ok i => exec i (decodeRegisters f)

/-- One step. A cycle is taken only in `Running`; `Halted` and `Faulted(k)` are terminal and the state stays as it is
(R27, R119; log entry 12). -/
def step (s : State) : Host.Outcome State Fault Refusal :=
  match s.run with
  | .running => cycle s
  | .halted => .next s
  | .faulted _ => .next s

/-- `s` with the instruction whose 21 bits are `w` in the cell `IC` points at, which is where step 2 fetches (R112). It
stands for the loader's store of that one Word (R51; log entry 2). Where `IC` points at no cell there is nowhere to
fetch from, and nothing is changed. -/
def State.withFetchWord (s : State) (_nbits w : Nat) : State :=
  if inBounds s.ic.toInt then
    { s with mem := s.mem.set s.ic.toInt.toNat (Word.ofCell (BitVec.ofNat 21 w)) }
  else s

end Machine
end Sys2Proof
end

