-- ==== Sys2Proof/Machine/HostPorts.lean ====
section
/-! DEFINITION. What the host sees of the machine and does to it (decision D14): the status port (R221), the snapshot (R35,
R217), the supply of input tokens (R139) and the loader's checked store (R51). None of these is part of a cycle. -/

namespace Sys2Proof
namespace Machine

/-- The number of a fault kind (R221, decision D13). -/
def faultCode : Fault → Nat
  | .addressOutOfBounds => 1
  | .wordOverflow => 2
  | .divisionByZero => 3
  | .invalidOpcode => 4
  | .programCounterOutOfBounds => 5

/-- `RUN` on the status port (R221, decision D13). -/
def statusCode : RunState → Nat
  | .running => 0
  | .halted => 1
  | .faulted _ => 2

/-- The exit status handed to the host when the run has ended (R219, R221). -/
def exitStatus : RunState → Option Nat
  | .running => none
  | .halted => some 0
  | .faulted k => some (faultCode k)

/-- The snapshot (R35): the five registers and every cell as texts. -/
structure Snapshot where
  acc : Text
  ic : Text
  ir : Text
  opc : Text
  opd : Text
  cells : List Text
  deriving DecidableEq, Repr

/-- The width the snapshot's texts are filled to: sign and five digits (R35, decision D12). -/
def snapshotWidth : Nat := 6

/-- Take the snapshot: raw reads, no check, no change of state (R35, decision D26). -/
def State.snapshot (s : State) : Snapshot :=
  { acc := s.acc.getString snapshotWidth
    ic := s.ic.getString snapshotWidth
    ir := s.ir.getString snapshotWidth
    opc := s.opc.getString snapshotWidth
    opd := s.opd.getString snapshotWidth
    cells := (List.range Config.memorySize).map (fun a => (s.cell a).getString snapshotWidth) }

/-- The host supplies one more input token (R139). -/
def State.supply (tok : Token) (s : State) : State := { s with input := s.input ++ [tok] }

/-- The loader's stores before the first cycle, each through the checked store; the first that fails is the loader's
error and the run does not start (R51). -/
def loadCells : List (Int × Word) → State → Except Fault State
  | [], s => .ok s
  | (a, w) :: rest, s =>
    match memWrite a w s with
    | .ok s' => loadCells rest s'
    | .error k => .error k

/-- The state at launch: reset, then the loader's stores, then the tokens the host has ready (R232). -/
def launch (cells : List (Int × Word)) (tokens : List Token) : Except Fault State :=
  match loadCells cells .reset with
  | .ok s => .ok { s with input := tokens }
  | .error k => .error k

end Machine
end Sys2Proof
end

