-- ==== Sys2Proof/Safety.lean ====
section
/-! DEFINITION. The terms the claims are stated in: when a cycle reaches the dispatch with an instruction, when it waits for
input or is refused, what holds of every state a run reaches, the layout of a packed string as a function of the cell, and
the characters that cells hold. -/

namespace Sys2Proof
namespace Machine

/-- The cycle of `s` passes steps 1 to 5 and dispatches `i` (R110 to R116): it runs, `IC` names a cell that can be read,
the accumulator is in range, the cell's Word is the instruction `i`, and the operand is a cell where `i` needs one. -/
structure State.Ready (s : State) (i : Instr) : Prop where
  running : s.run = .running
  counter : 0 ≤ s.ic.toInt ∧ s.ic.toInt < 1000
  fetchable : (s.cell s.ic.toInt.toNat).overflow = false
  accumulator : s.acc.overflow = false
  decoded : decode (s.cell s.ic.toInt.toNat) = .ok i
  operand : i.needsAddress = true → i.operand < 1000

/-- The READ-class instructions (R120). -/
def readClass : Instr → Bool
  | .readInt _ => true
  | .readString _ => true
  | .readDouble _ => true
  | _ => false

/-- The first token, if there is one, is of the type the instruction asks for (the host contract, R139). -/
def tokenFits : Instr → List Token → Bool
  | .readInt _, .double _ :: _ => false
  | .readInt _, .string _ :: _ => false
  | .readDouble _, .int _ :: _ => false
  | .readDouble _, .string _ :: _ => false
  | .readString _, .int _ :: _ => false
  | .readString _, .double _ :: _ => false
  | _, _ => true

/-- POWER_INT of the cell `a` asks for `0` to a negative power, which has no value (R176, 93_implementation_defined.md
U4). -/
def State.zeroToNegative (s : State) (a : Nat) : Prop := s.acc.toInt = 0 ∧ (s.cell a).toInt < 0

/-- What holds in the reset state and is kept by every step. -/
structure State.Inv (s : State) : Prop where
  /-- The memory is in its canonical form. -/
  memoryCanonical : s.mem.wf = true
  /-- Every cell is in the range of a stored word (R30). -/
  memoryInRange : s.mem.inRange = true
  /-- `IC` is an integer Word with a value from 0 to 0xFFF (R24). -/
  counterValue : s.ic = .fromInt s.ic.toInt ∧ 0 ≤ s.ic.toInt ∧ s.ic.toInt ≤ 0xFFF
  /-- `IR` is in the range of a stored word: it came from a cell (R25). -/
  instructionInRange : s.ir.overflow = false
  /-- `OPC` and `OPD` are the two parts of `IR` (R26). -/
  derivedRegisters : s.opc = .fromInt (opcodeField s.ir) ∧ s.opd = .fromInt (operandField s.ir)
  /-- `ProgramCounterOutOfBounds` leaves `IC` outside the memory (R205). -/
  counterFault : s.run = .faulted .programCounterOutOfBounds → 1000 ≤ s.ic.toInt
  /-- Every other end of a run leaves `IC` on a cell (R188, R200). -/
  otherEnds : s.run ≠ .running → s.run ≠ .faulted .programCounterOutOfBounds → s.ic.toInt < 1000
  /-- `Halted` is reached by HALT alone, with the accumulator in range (R188). -/
  haltedShowsHalt : s.run = .halted → s.opc = .fromInt 0x43 ∧ s.acc.overflow = false
  /-- Every character emitted has a code from 0 to 0xFFF (R140). -/
  characterCodes : ∀ c, Event.char c ∈ s.output → c ≤ 0xFFF

/-- No register and no cell holds a negative zero (R31), in a memory in its canonical form. -/
structure State.NoNegativeZero (s : State) : Prop where
  memoryCanonical : s.mem.wf = true
  registers : ∀ w ∈ [s.acc, s.ic, s.ir, s.opc, s.opd], w.isNegativeZero = false
  cells : ∀ a, (s.cell a).isNegativeZero = false

/-- The code of character number `j` of a string, counted from 0; 0 past its end. -/
def charCode (cs : List (Fin 256)) (j : Nat) : Nat := (cs[j]?.map Fin.val).getD 0

/-- Word number `k` of a packed string (R137): Word 0 holds the length and the first character, Word `k > 0` the two
characters numbered `2k-1` and `2k`. A string of `L` characters has the Words 0 to `L / 2`. -/
def stringWord (cs : List (Fin 256)) (k : Nat) : Word :=
  if k = 0 then .fromInt ((cs.length * 0x100 + charCode cs 0 : Nat) : Int)
  else .fromInt ((charCode cs (2 * k - 1) * 0x100 + charCode cs (2 * k) : Nat) : Int)

/-- The characters that a Word of a packed string after the first holds: the upper field, and the lower field unless it is
0 (R138). -/
def cellChars (w : Word) : List Nat := if w.lower = 0 then [w.upper] else [w.upper, w.lower]

/-- The characters that the cells from `a` to the end of the memory hold when a packed string begins in `a`: the lower
field of the first Word, and then those of each Word behind it (R138). -/
def State.storedChars (s : State) (a : Nat) : List Nat :=
  (s.cell a).lower :: (List.range' (a + 1) (Config.memorySize - (a + 1))).flatMap fun b => cellChars (s.cell b)

end Machine
end Sys2Proof
end

