-- ==== Sys2Proof/Certificates/Slice0/Obligations.lean ====
section
/-! DEFINITION. The statements for the provers. A statement written from a rule that the spec marks as derived or as its own
decision (D<n> of 92_eei_decisions.md), or that rests on a choice of the model (an entry of notes/assumptions), says so
in its docstring. A new state is written out as an update of the old one, so that each statement of a result is also the
frame of the instruction: every field that is not named is unchanged, the whole memory included. -/

open Sys2Proof Sys2Proof.Machine

/-! ### Encoding -/

/-- Decoding the Word of a well-formed instruction gives the instruction back, through the 21 bits of a cell as well,
and under every opcode map that gives different mnemonics different numbers. R61, R63, R64; decisions D1, D2 and D4. -/
def Obligations.DecodeOfEncodeGivesTheInstruction : Prop :=
  (∀ i : Instr, i.wellFormed = true →
    decode (encode i) = .ok i ∧ Word.ofCell (encode i).toCell = encode i ∧
      decodeTableWord 24 (encode i).toCell.toNat = some i) ∧
  (∀ num : Mnemonic → Nat, Function.Injective num → ∀ i : Instr, i.wellFormed = true →
    decodeWith num (encodeWith num i) = .ok i) ∧
  Function.Injective opcodeNumber ∧ Function.Injective opcodeNumberDecimal

/-- A Word that decodes to an instruction is the encoding of that instruction, but for a fraction, which decoding
ignores; and the instruction is well formed. R63, R65; decision D4. -/
def Obligations.EncodeOfDecodeGivesTheWord : Prop :=
  ∀ (w : Word) (i : Instr), decode w = .ok i → i.wellFormed = true ∧ encode i = { w with fr := [] }

/-- The Words that are no instruction are exactly the negative ones and those whose opcode value is unused; of the
values of the opcode field 231 are unused; `+00000` is no instruction. R65, which the spec derives from R63 and R64. -/
def Obligations.RejectsExactlyTheUnusedOpcodes : Prop :=
  (∀ w : Word, (∃ r, decode w = .error r) ↔ w.toInt < 0 ∨
    let c := w.ip / 0x1000
    c ≤ 0x0F ∨ (0x17 ≤ c ∧ c ≤ 0x1F) ∨ c = 0x22 ∨ c = 0x23 ∨ (0x2A ≤ c ∧ c ≤ 0x2F) ∨
      (0x36 ≤ c ∧ c ≤ 0x3F) ∨ 0x44 ≤ c) ∧
  ((List.range 256).filter (fun c => (decode ⟨false, c * 0x1000, []⟩).toOption.isNone)).length = 231 ∧
  ∃ r, decode Word.zero = .error r

/-- A few Words written out from the table of R64 and the vectors V70, V72, V77, V80, V82 and V83. Decisions D1, D4. -/
def Obligations.WordsOfTheTableDecodeToTheirInstructions : Prop :=
  decode ⟨false, 0x10007, []⟩ = .ok (.readInt 7) ∧ decode ⟨false, 0x10007, [8]⟩ = .ok (.readInt 7) ∧
  decode ⟨false, 0x12FFF, []⟩ = .ok (.newline 0xFFF) ∧ decode ⟨false, 0x14020, []⟩ = .ok (.writeString 0x20) ∧
  decode ⟨false, 0x203E7, []⟩ = .ok (.load 999) ∧ decode ⟨false, 0x21009, []⟩ = .ok (.store 9) ∧
  decode ⟨false, 0x26010, []⟩ = .ok (.divideDouble 0x10) ∧ decode ⟨false, 0x31011, []⟩ = .ok (.subtractInt 0x11) ∧
  decode ⟨false, 0x4200A, []⟩ = .ok (.branchZero 0xA) ∧ decode ⟨false, 0x43000, []⟩ = .ok (.halt 0) ∧
  decode ⟨false, 0x22005, []⟩ = .error (.unknownOpcode 0x22) ∧
  decode ⟨true, 0x10007, []⟩ = .error (.unknownOpcode (-16))

/-! ### The Word codec and the tests on Words -/

/-- R88, whole: the decode of an encoded integer is the integer, and so is the decode of its parsed text. -/
def Obligations.DecodingTheEncodingOfAnInteger : Prop :=
  (∀ n : Int, (Word.fromInt n).toInt = n) ∧
  ∀ n : Int, n.natAbs ≤ 0xFFFFF → (Word.parseWord ((Word.fromInt n).getString 6)).toInt = n

/-- The fixed-width text has the width asked for or the natural one, is unchanged when it is already that long, shows the
sign first, and parses back to the same Word. R85, R81; decisions D12 and D28. -/
def Obligations.FixedWidthTextKeepsTheWord : Prop :=
  ∀ (w : Word) (n : Nat),
    (w.getString n).length = max n (w.getString 0).length ∧
    (n ≤ (w.getString 0).length → w.getString n = w.getString 0) ∧
    (w.getString n).head? = some (if w.neg then '-' else '+') ∧
    Word.parseWord (w.getString n) = w

/-- The lenient parser: a sign, digits, and at most one point with digits after it give the Word of these digits in base
16; every other text gives `ZERO`. R81; decision D28. -/
def Obligations.LenientParserReadsLiteralsAndZeroesTheRest : Prop :=
  (Word.ofDigits [] = 0 ∧ ∀ ds d, Word.ofDigits (ds ++ [d]) = 16 * Word.ofDigits ds + d.val) ∧
  (∀ (c : Char) (i f : List HexDigit), c = '+' ∨ c = '-' →
    Word.parseWord (c :: i.map Word.digitChar) = ⟨decide (c = '-'), Word.ofDigits i, []⟩ ∧
    Word.parseWord (c :: (i.map Word.digitChar ++ '.' :: f.map Word.digitChar)) =
      ⟨decide (c = '-'), Word.ofDigits i, f⟩) ∧
  ∀ t : Text,
    (∀ (c : Char) (i f : List HexDigit), c = '+' ∨ c = '-' →
      t ≠ c :: i.map Word.digitChar ∧ t ≠ c :: (i.map Word.digitChar ++ '.' :: f.map Word.digitChar)) →
    Word.parseWord t = Word.zero

/-- The overflow test holds exactly when the exact value is beyond `±1048575`. R43; decision D9. -/
def Obligations.OverflowTestIsTheValueBound : Prop :=
  ∀ w : Word, w.overflow = true ↔ (w.val > 1048575 ∨ w.val < -1048575)

/-- The zero test and the sign test are on the exact value, not on the integer part or the sign character; for a Word
without fraction the value is the integer. R84, R86, R186, R187; decision D9. -/
def Obligations.ZeroAndSignTestsAreOnTheExactValue : Prop :=
  ∀ w : Word, (w.isZero = true ↔ w.val = 0) ∧ (w.isNegative = true ↔ w.val < 0) ∧
    (w.fr = [] → w.val = (w.toInt : Rat))

/-! ### The integer-mode ALU -/

/-- R91, R92 and R93, whole: sum, difference and product are exact, within the ranges given for operands in range; a
product has the sign the rule gives it, and is `+0` when either operand is zero. -/
def Obligations.SumDifferenceAndProductAreExact : Prop :=
  ∀ a b : Word,
    intArith .add a b = .fromInt (a.toInt + b.toInt) ∧
    intArith .subtract a b = .fromInt (a.toInt - b.toInt) ∧
    intArith .multiply a b = .fromInt (a.toInt * b.toInt) ∧
    (a.overflow = false → b.overflow = false →
      (a.toInt + b.toInt).natAbs ≤ 0x1FFFFE ∧ (a.toInt - b.toInt).natAbs ≤ 0x1FFFFE ∧
      (a.toInt * b.toInt).natAbs ≤ 0xFFFFE00001) ∧
    (a.toInt ≠ 0 → b.toInt ≠ 0 → (intArith .multiply a b).neg = (a.neg != b.neg)) ∧
    (a.toInt = 0 ∨ b.toInt = 0 → intArith .multiply a b = Word.zero) ∧
    intArith .add (.fromInt 3) (.fromInt 4) = .fromInt 7

/-- The quotient truncates toward zero and the remainder has the sign of the dividend: the four facts determine both.
A quotient never exceeds its dividend. R94, R95; decision D4. -/
def Obligations.QuotientTruncatesAndRemainderFollowsDividend : Prop :=
  ∀ a b : Word, b.toInt ≠ 0 → ∃ q r : Int,
    intArith .divide a b = .fromInt q ∧ intArith .mod a b = .fromInt r ∧
    a.toInt = b.toInt * q + r ∧ r.natAbs < b.toInt.natAbs ∧ 0 ≤ r * a.toInt ∧ q.natAbs ≤ a.toInt.natAbs

/-- The power: exact for an exponent of 0 or more, `0 ^ 0` included; for a negative exponent and a base other than 0 the
exact rational `1 / x^|y|` truncated toward zero, which is 1, -1 or 0 by the cases of R96. Decision D5. -/
def Obligations.IntegerPowerAtEveryStatedCorner : Prop :=
  ∀ a b : Word,
    (0 ≤ b.toInt → intArith .exponent a b = .fromInt (a.toInt ^ b.toInt.toNat)) ∧
    (b.toInt < 0 → a.toInt ≠ 0 → intArith .exponent a b = .fromInt (Int.tdiv 1 (a.toInt ^ (-b.toInt).toNat))) ∧
    (b.toInt < 0 → a.toInt = 1 → intArith .exponent a b = .fromInt 1) ∧
    (b.toInt < 0 → a.toInt = -1 → intArith .exponent a b = .fromInt (if b.toInt % 2 = 0 then 1 else -1)) ∧
    (b.toInt < 0 → 2 ≤ a.toInt.natAbs → intArith .exponent a b = Word.zero)

/-! ### Memory -/

/-- R41, whole: bounds, then magnitude, then the cell; no state is among its results, and in a state that meets the
invariant the magnitude check never fails. -/
def Obligations.CheckedReadOfOneCell : Prop :=
  ∀ (addr : Int) (s : State),
    (addr < 0 ∨ 1000 ≤ addr → memRead addr s = .error .addressOutOfBounds) ∧
    (0 ≤ addr → addr < 1000 → (s.cell addr.toNat).overflow = true → memRead addr s = .error .wordOverflow) ∧
    (0 ≤ addr → addr < 1000 → (s.cell addr.toNat).overflow = false → memRead addr s = .ok (s.cell addr.toNat)) ∧
    (s.Inv → memRead addr s ≠ .error .wordOverflow)

/-- The checked write: bounds before magnitude; on success the cell holds the whole Word, every other cell and every
other field is as before, and the memory stays in its canonical form. R42, R44; decision D10. The canonical form is the
model's own (log entry 3). -/
def Obligations.CheckedWriteOfOneCell : Prop :=
  ∀ (addr : Int) (w : Word) (s : State), s.mem.wf = true →
    (addr < 0 ∨ 1000 ≤ addr → memWrite addr w s = .error .addressOutOfBounds) ∧
    (0 ≤ addr → addr < 1000 → w.overflow = true → memWrite addr w s = .error .wordOverflow) ∧
    (0 ≤ addr → addr < 1000 → w.overflow = false → ∃ t, memWrite addr w s = .ok t ∧
      t = { s with mem := t.mem } ∧ t.cell addr.toNat = w ∧
      (∀ b : Nat, b ≠ addr.toNat → t.cell b = s.cell b) ∧ t.mem.wf = true)

/-- Two memories in the canonical form with the same 1000 cells are the same data. The form is the model's own
(log entry 3); R30 gives the cells. -/
def Obligations.MemoriesWithEqualCellsAreEqual : Prop :=
  ∀ m m' : Memory, m.wf = true → m'.wf = true → (∀ a, a < 1000 → m.get a = m'.get a) → m = m'

/-- The sixteen instructions that read a cell raise the fault of the read and write nothing else: bounds first, then
magnitude. R41; R202 (c), which no run from reset reaches. Decision D10 orders the two. -/
def Obligations.CellReadersRaiseTheFaultOfTheRead : Prop :=
  ∀ (s : State) (a : Nat) (i : Instr),
    i ∈ [.writeInt a, .writeString a, .writeDouble a, .load a, .addDouble a, .subtractDouble a, .divideDouble a,
      .multiplyDouble a, .remainderDouble a, .powerDouble a, .addInt a, .subtractInt a, .divideInt a, .multiplyInt a,
      .remainderInt a, .powerInt a] →
    (1000 ≤ a → exec i s = .next { s with run := .faulted .addressOutOfBounds }) ∧
    (a < 1000 → (s.cell a).overflow = true → exec i s = .next { s with run := .faulted .wordOverflow })

/-! ### The cycle -/

/-- When a cycle passes steps 1 to 5 with the instruction `i`, the step is the meaning of `i` in the state that differs
from the old one by `IR`, `OPC` and `OPD`, which steps 2 and 3 have written. R110 to R116, R121; decisions D4 and D6. -/
def Obligations.StepRunsTheDecodedInstruction : Prop :=
  ∀ (s : State) (i : Instr), s.run = .running → 0 ≤ s.ic.toInt → s.ic.toInt < 1000 →
    let w := s.cell s.ic.toInt.toNat
    w.overflow = false → s.acc.overflow = false → decode w = .ok i → (i.needsAddress = true → i.operand < 1000) →
    step s = exec i { s with ir := w, opc := .fromInt (w.toInt.tdiv 0x1000), opd := .fromInt (w.toInt.tmod 0x1000) }

/-- R111, whole: step 1 raises `ProgramCounterOutOfBounds` with nothing written, whatever the accumulator holds. -/
def Obligations.StepOneChecksTheInstructionCounter : Prop :=
  ∀ s : State, s.run = .running → s.ic.toInt < 0 ∨ 1000 ≤ s.ic.toInt →
    step s = .next { s with run := .faulted .programCounterOutOfBounds }

/-- R112, whole: step 2 writes what `MemRead` gives for `IC`, the cell `IC` points at, into `IR`; its bounds arm cannot fire
after step 1; when the cell's Word overflows the cycle ends in `WordOverflow` with `IR` unwritten, which no state that meets
the invariant shows. -/
def Obligations.StepTwoFetchesTheCellTheCounterNames : Prop :=
  ∀ s : State, s.run = .running → 0 ≤ s.ic.toInt → s.ic.toInt < 1000 →
    memRead s.ic.toInt s ≠ .error .addressOutOfBounds ∧
    ((s.cell s.ic.toInt.toNat).overflow = false →
      memRead s.ic.toInt s = .ok (s.cell s.ic.toInt.toNat) ∧
      ∀ t, step s = .next t → t.ir = s.cell s.ic.toInt.toNat) ∧
    ((s.cell s.ic.toInt.toNat).overflow = true → step s = .next { s with run := .faulted .wordOverflow }) ∧
    (s.Inv → (s.cell s.ic.toInt.toNat).overflow = false)

/-- Step 3: after every cycle that fetched, `OPC` and `OPD` are the quotient and the remainder of the fetched Word's
integer value by 0x1000; no later step writes them. R113, R26; decision D4. -/
def Obligations.StepThreeWritesTheDerivedRegisters : Prop :=
  ∀ s t : State, s.run = .running → 0 ≤ s.ic.toInt → s.ic.toInt < 1000 →
    (s.cell s.ic.toInt.toNat).overflow = false → step s = .next t →
    t.opc = .fromInt ((s.cell s.ic.toInt.toNat).toInt.tdiv 0x1000) ∧
    t.opd = .fromInt ((s.cell s.ic.toInt.toNat).toInt.tmod 0x1000)

/-- R114, whole: an accumulator out of range is found in step 4 of every cycle, for every fetched Word, recognised or
not; `IR`, `OPC` and `OPD` are this instruction's, `IC` and `ACC` are unchanged. -/
def Obligations.StepFourChecksTheAccumulator : Prop :=
  ∀ s : State, s.run = .running → 0 ≤ s.ic.toInt → s.ic.toInt < 1000 →
    let w := s.cell s.ic.toInt.toNat
    w.overflow = false → s.acc.overflow = true →
    step s = .next { s with
      ir := w, opc := .fromInt (w.toInt.tdiv 0x1000), opd := .fromInt (w.toInt.tmod 0x1000),
      run := .faulted .wordOverflow }

/-- Step 5: for the 20 opcodes that access `M[operand]` an operand of 1000 or more is `AddressOutOfBounds`, before the
handler does anything; for NEWLINE, the branches and HALT it is no fault. R115; decision D6. -/
def Obligations.StepFiveChecksTheOperand : Prop :=
  ∀ (s : State) (c t : Nat), s.run = .running → 0 ≤ s.ic.toInt → s.ic.toInt < 1000 →
    (s.cell s.ic.toInt.toNat).overflow = false → s.acc.overflow = false →
    (s.cell s.ic.toInt.toNat).toInt = ((c * 0x1000 + t : Nat) : Int) → 1000 ≤ t → t < 0x1000 →
    (c ∈ [0x10, 0x11, 0x13, 0x14, 0x15, 0x16, 0x20, 0x21, 0x24, 0x25, 0x26, 0x27, 0x28, 0x29,
        0x30, 0x31, 0x32, 0x33, 0x34, 0x35] →
      step s = .next { s with
        ir := s.cell s.ic.toInt.toNat, opc := .fromInt c, opd := .fromInt t,
        run := .faulted .addressOutOfBounds }) ∧
    (c ∈ [0x12, 0x40, 0x41, 0x42, 0x43] → ∃ u, step s = .next u ∧ (u.run = .running ∨ u.run = .halted))

/-- A Word whose opcode is none of the 25, and every negative Word, is `InvalidOpcode`, after step 4 and without a look
at the operand; only `IR`, `OPC` and `OPD` change. R118, R204; decision D7. -/
def Obligations.UnrecognisedOpcodeIsInvalidOpcode : Prop :=
  ∀ s : State, s.run = .running → 0 ≤ s.ic.toInt → s.ic.toInt < 1000 →
    let w := s.cell s.ic.toInt.toNat
    w.overflow = false → s.acc.overflow = false →
    w.toInt < 0 ∨ w.ip / 0x1000 ∉ [0x10, 0x11, 0x12, 0x13, 0x14, 0x15, 0x16, 0x20, 0x21, 0x24, 0x25, 0x26, 0x27, 0x28,
      0x29, 0x30, 0x31, 0x32, 0x33, 0x34, 0x35, 0x40, 0x41, 0x42, 0x43] →
    step s = .next { s with
      ir := w, opc := .fromInt (w.toInt.tdiv 0x1000), opd := .fromInt (w.toInt.tmod 0x1000),
      run := .faulted .invalidOpcode }

/-- In `Halted` and `Faulted(k)` no cycle is taken and nothing changes, for any number of steps. R27, R119. That a step
there answers the unchanged state is the model's choice (log entry 12). -/
def Obligations.TerminalStatesStay : Prop :=
  ∀ (s : State) (n : Nat), s.run ≠ .running → Sys2Proof.core.run n s = .next s

/-- R117, the instruction counter after a cycle: a branch sets it to `OPD`, a conditional branch when its condition
holds on the accumulator's value and else one more; HALT, every fault and a wait for input leave it; every other
instruction adds one. It is neither checked nor wrapped. -/
def Obligations.InstructionCounterAfterACycle : Prop :=
  ∀ (s t : State) (i : Instr), s.Ready i → step s = .next t →
    (t.run ≠ .running → t.ic = s.ic) ∧
    (readClass i = true → s.input = [] → t.ic = s.ic) ∧
    (t.run = .running → (readClass i = true → s.input ≠ []) →
      t.ic = match i with
        | .branch _ => t.opd
        | .branchNeg _ => if s.acc.val < 0 then t.opd else .fromInt (s.ic.toInt + 1)
        | .branchZero _ => if s.acc.val = 0 then t.opd else .fromInt (s.ic.toInt + 1)
        | _ => .fromInt (s.ic.toInt + 1))

/-- Faults are precise: when a cycle ends in a fault, `ACC` and `IC` are the old ones; the memory is the old one unless
READSTRING was cut, and then below its operand as well; the output is the old one, or WRITESTRING has appended to it; and
the input is the old one, or a READ-class instruction has taken its token. With `ProgramCounterOutOfBounds` nothing but
`RUN` has changed. R208 (its clauses on the state), R200. -/
def Obligations.FaultsArePrecise : Prop :=
  ∀ (s t : State) (k : Fault), s.run = .running → step s = .next t → t.run = .faulted k →
    t.acc = s.acc ∧ t.ic = s.ic ∧
    (k = .programCounterOutOfBounds → t = { s with run := .faulted k }) ∧
    (t.mem ≠ s.mem → ∃ a, s.Ready (.readString a) ∧ (s.mem.wf = true → ∀ b, b < a → t.cell b = s.cell b)) ∧
    (t.output ≠ s.output → ∃ (a : Nat) (cs : List Nat), s.Ready (.writeString a) ∧ t.output = s.output ++ cs.map Event.char) ∧
    (t.input ≠ s.input → ∃ i tok, s.Ready i ∧ readClass i = true ∧ s.input = tok :: t.input)

/-- A cycle ends in `Halted` exactly when it dispatches HALT, and then nothing but `IR`, `OPC`, `OPD` and `RUN` changes.
R27, R188, R219; decision D22. -/
def Obligations.HaltedIsReachedByHaltAlone : Prop :=
  ∀ s t : State, s.run = .running → step s = .next t →
    (t.run = .halted ↔ ∃ a, s.Ready (.halt a)) ∧
    (t.run = .halted → t = { s with ir := t.ir, opc := t.opc, opd := t.opd, run := .halted })

/-- Only READ_INT, READSTRING, READ_DOUBLE and STORE write memory. R50 (2), which rests on decision D14; R152. -/
def Obligations.OnlyFourInstructionsWriteMemory : Prop :=
  ∀ s t : State, step s = .next t → t.mem ≠ s.mem →
    ∃ a, s.Ready (.readInt a) ∨ s.Ready (.readString a) ∨ s.Ready (.readDouble a) ∨ s.Ready (.store a)

/-- Only LOAD, STORE and the twelve arithmetic instructions write the accumulator. R23; decision D3. -/
def Obligations.OnlyLoadStoreAndArithmeticWriteTheAccumulator : Prop :=
  ∀ s t : State, step s = .next t → t.acc ≠ s.acc →
    ∃ a i, s.Ready i ∧ i ∈ [.load a, .store a, .addDouble a, .subtractDouble a, .divideDouble a, .multiplyDouble a,
      .remainderDouble a, .powerDouble a, .addInt a, .subtractInt a, .divideInt a, .multiplyInt a, .remainderInt a,
      .powerInt a]

/-- The ports: output is only appended to, and only by the three WRITE-class instructions and NEWLINE; input loses at most
its first token, and only to a READ-class instruction. R139, R140; decisions D15 and D16. -/
def Obligations.PortsMoveOnlyByTheirInstructions : Prop :=
  ∀ s t : State, step s = .next t →
    (∃ es, t.output = s.output ++ es ∧
      (es ≠ [] → ∃ a, s.Ready (.writeInt a) ∨ s.Ready (.newline a) ∨ s.Ready (.writeString a) ∨
        s.Ready (.writeDouble a))) ∧
    (t.input = s.input ∨ ∃ tok i, s.input = tok :: t.input ∧ s.Ready i ∧ readClass i = true)

/-- A step answers a next state, always, but for two refusals. A READ-class instruction meets a token of another type, which
the host contract excludes (R139, 93_implementation_defined.md U8): `wrongTokenType`. POWER_INT is asked for `0` to a
negative power, which has no value (R176, decision D5, U4; log entry 7): `zeroToNegativePower`. That a fault, the wait of a READ-class
instruction for its token, and a step after the end of the run each answer a next state is the model's choice (log entries
1, 11 and 12; R208, R120 and R119 say what happens there); that the wrong type is refused is log entry 10. -/
def Obligations.StepAnswersOutsideTheTwoRefusals : Prop :=
  ∀ s : State,
    let wrongType := ∃ i, s.Ready i ∧ readClass i = true ∧ tokenFits i s.input = false
    let noPower := ∃ a, s.Ready (.powerInt a) ∧ (s.cell a).overflow = false ∧ s.zeroToNegative a
    (wrongType → step s = .refused .wrongTokenType) ∧
    (noPower → step s = .refused .zeroToNegativePower) ∧
    (¬ wrongType → ¬ noPower → ∃ t, step s = .next t)

/-- A READ-class instruction without a token waits: nothing but `IR`, `OPC` and `OPD` changes, waiting again changes
nothing, and once the host supplies a token the step is the one it would have been with the token there from the start.
R120, R239; decision D15; log entry 11. -/
def Obligations.BlockedReadWaitsForItsToken : Prop :=
  ∀ (s : State) (i : Instr) (tok : Token), s.Ready i → readClass i = true → s.input = [] →
    ∃ t, step s = .next t ∧ t = { s with ir := t.ir, opc := t.opc, opd := t.opd } ∧ step t = .next t ∧
      step (t.supply tok) = step (s.supply tok)

/-! ### Invariants and whole-machine rules -/

/-- After reset every register and every cell is `ZERO`, `RUN` is `Running` and `Output` is empty. R230, R33, R34;
decisions D8, D16 and D19. The empty `Input` is the model's choice (log entry 2). -/
def Obligations.ResetStateIsZeroAndRunning : Prop :=
  State.reset.acc = .zero ∧ State.reset.ic = .zero ∧ State.reset.ir = .zero ∧ State.reset.opc = .zero ∧
  State.reset.opd = .zero ∧ State.reset.run = .running ∧ (∀ a, State.reset.cell a = .zero) ∧
  State.reset.output = [] ∧ State.reset.input = []

/-- The invariant holds after reset, and is kept by everything the host does before and between the cycles: the loader's
checked stores, which change the memory alone (R30, R51), the supply of a token (R139), and the store of the one Word that
the model's `withFetchWord` makes (log entry 2). So it holds in every launch state; and a launch succeeds when every Word
and every address of the program is in range (R232). R33; decisions D8, D19 and D25. -/
def Obligations.ResetAndLoadMeetTheInvariant : Prop :=
  State.reset.Inv ∧
  (∀ (cells : List (Int × Word)) (s t : State), s.Inv → loadCells cells s = .ok t →
    t.Inv ∧ t = { s with mem := t.mem }) ∧
  (∀ (cells : List (Int × Word)) (tokens : List Token) (s : State), launch cells tokens = .ok s →
    s.Inv ∧ s = { State.reset with mem := s.mem, input := tokens }) ∧
  (∀ (cells : List (Int × Word)) (tokens : List Token),
    (∀ c ∈ cells, 0 ≤ c.1 ∧ c.1 < 1000 ∧ c.2.overflow = false) → ∃ s, launch cells tokens = .ok s) ∧
  (∀ (s : State) (tok : Token), s.Inv → (s.supply tok).Inv) ∧
  ∀ (s : State) (nbits w : Nat), s.Inv → (s.withFetchWord nbits w).Inv

/-- Every step from a state that meets the invariant gives a state that meets it: the memory stays canonical with every
cell in range (R30), `IC` stays an integer from 0 to 0xFFF (R24), `OPC` and `OPD` stay the parts of `IR` (R26), the ends of
the run leave `IC` where R188, R200 and R205 say, and the characters emitted stay in 0 to 0xFFF (R140). Decisions D3, D4,
D13 and D16; the canonical form is the model's own (log entry 3). -/
def Obligations.EveryStepKeepsTheInvariant : Prop :=
  ∀ s t : State, s.Inv → step s = .next t → t.Inv

/-- Overflow is reported one instruction late. When a cycle leaves the accumulator out of range, it was an arithmetic
instruction that can overflow; the cycle itself ended normally with `IC` advanced; and the next step executes nothing,
whatever it fetches: it ends in `WordOverflow`, or in `ProgramCounterOutOfBounds` when the overflow was at 999, with `ACC`
and `IC` kept. R235, which the spec derives from R111 and R114; R32. -/
def Obligations.OverflowIsReportedOneInstructionLate : Prop :=
  ∀ s t : State, s.Inv → s.run = .running → step s = .next t → t.run = .running → t.acc.overflow = true →
    (∃ a i, s.Ready i ∧ i ∈ [.addInt a, .subtractInt a, .multiplyInt a, .powerInt a, .addDouble a, .subtractDouble a,
      .multiplyDouble a, .divideDouble a, .remainderDouble a, .powerDouble a]) ∧
    t.ic = .fromInt (s.ic.toInt + 1) ∧ t.mem = s.mem ∧ t.input = s.input ∧ t.output = s.output ∧
    ∃ u, step t = .next u ∧ u = { t with ir := u.ir, opc := u.opc, opd := u.opd, run := u.run } ∧
      u.run = if s.ic.toInt = 999 then .faulted .programCounterOutOfBounds else .faulted .wordOverflow

/-- A stored instruction is what the next cycle fetches: after a STORE into the cell behind it, the next step runs the
Word that was in the accumulator. R55 and R236, which the spec derives from R41 and R52. -/
def Obligations.StoredWordIsTheNextInstruction : Prop :=
  ∀ (s : State) (i : Instr), s.mem.wf = true → s.ic.toInt + 1 < 1000 →
    s.Ready (.store (s.ic.toInt + 1).toNat) → decode s.acc = .ok i → (i.needsAddress = true → i.operand < 1000) →
    ∃ t, step s = .next t ∧ t.run = .running ∧ t.ic = .fromInt (s.ic.toInt + 1) ∧
      step t = exec i { t with ir := s.acc, opc := .fromInt (s.acc.toInt.tdiv 0x1000),
                               opd := .fromInt (s.acc.toInt.tmod 0x1000) }

/-- R234, whole: after a STORE the accumulator is `+0` whatever it held; a BRANCHZERO that follows it is always taken and
a BRANCHNEG never. -/
def Obligations.StoreDestroysTheAccumulator : Prop :=
  ∀ (s : State) (a : Nat), s.Ready (.store a) →
    ∃ t, step s = .next t ∧ t.acc = .zero ∧ t.ic = .fromInt (s.ic.toInt + 1) ∧
      (∀ b, t.Ready (.branchZero b) → ∃ u, step t = .next u ∧ u.ic = .fromInt b) ∧
      (∀ b, t.Ready (.branchNeg b) → ∃ u, step t = .next u ∧ u.ic = .fromInt (t.ic.toInt + 1))

/-- The snapshot shows the registers and the whole memory: two states with the same snapshot have the same five registers
and the same memory. R35; decisions D12 and D26; the canonical form of the memory is the model's own (log entry 3). -/
def Obligations.SnapshotShowsRegistersAndMemory : Prop :=
  ∀ s t : State, s.mem.wf = true → t.mem.wf = true → s.snapshot = t.snapshot →
    s.acc = t.acc ∧ s.ic = t.ic ∧ s.ir = t.ir ∧ s.opc = t.opc ∧ s.opd = t.opd ∧ s.mem = t.mem

/-! ### Input and output instructions -/

/-- R130, whole: READ_INT takes the integer token and stores it, and advances; an integer beyond the range is
`WordOverflow` with the token consumed, the memory and `IC` as before. (That it blocks without a token is
Obligations.BlockedReadWaitsForItsToken.) -/
def Obligations.ReadIntStoresItsToken : Prop :=
  ∀ (s : State) (a : Nat) (n : Int) (rest : List Token), a < 1000 → s.mem.wf = true → s.input = .int n :: rest →
    (n.natAbs ≤ 0xFFFFF → ∃ t, exec (.readInt a) s = .next t ∧
      t = { s with mem := t.mem, input := rest, ic := .fromInt (s.ic.toInt + 1) } ∧
      t.cell a = .fromInt n ∧ ∀ b, b ≠ a → t.cell b = s.cell b) ∧
    (0xFFFFF < n.natAbs →
      exec (.readInt a) s = .next { s with input := rest, run := .faulted .wordOverflow })

/-- R131, whole: WRITE_INT emits the integer part of the cell, fraction dropped, `-0` as 0, and no line break. -/
def Obligations.WriteIntEmitsTheIntegerPart : Prop :=
  ∀ (s : State) (a : Nat), a < 1000 → (s.cell a).overflow = false →
    exec (.writeInt a) s = .next { s with
      output := s.output ++ [.int (if (s.cell a).neg then -((s.cell a).ip : Int) else (s.cell a).ip)],
      ic := .fromInt (s.ic.toInt + 1) }

/-- NEWLINE emits a line break whatever its operand. R132; decision D22. -/
def Obligations.NewlineEmitsALineBreak : Prop :=
  ∀ (s : State) (a : Nat),
    exec (.newline a) s = .next { s with output := s.output ++ [.newline], ic := .fromInt (s.ic.toInt + 1) }

/-- R133 and R137, whole: READSTRING takes the string token and stores it packed from its operand on, one Word for every
two characters and one more, and no other cell changes. A string of more than 0xFFF characters is `WordOverflow` with
nothing written; one that runs past cell 999 is `AddressOutOfBounds` with the Words up to cell 999 written; in both cases
the token is consumed and `IC` is not advanced. (That it blocks without a token is
Obligations.BlockedReadWaitsForItsToken.) -/
def Obligations.ReadStringStoresThePackedString : Prop :=
  ∀ (s : State) (a : Nat) (cs : List (Fin 256)) (rest : List Token), a < 1000 → s.mem.wf = true →
    s.input = .string cs :: rest →
    (cs.length ≤ 0xFFF → a + cs.length / 2 < 1000 → ∃ t, exec (.readString a) s = .next t ∧
      t = { s with mem := t.mem, input := rest, ic := .fromInt (s.ic.toInt + 1) } ∧
      (∀ k, k ≤ cs.length / 2 → t.cell (a + k) = stringWord cs k) ∧
      (∀ b, b < a ∨ a + cs.length / 2 < b → t.cell b = s.cell b)) ∧
    (0xFFF < cs.length → exec (.readString a) s = .next { s with input := rest, run := .faulted .wordOverflow }) ∧
    (cs.length ≤ 0xFFF → 1000 ≤ a + cs.length / 2 → ∃ t, exec (.readString a) s = .next t ∧
      t = { s with mem := t.mem, input := rest, run := .faulted .addressOutOfBounds } ∧
      (∀ k, a + k < 1000 → t.cell (a + k) = stringWord cs k) ∧ ∀ b, b < a → t.cell b = s.cell b)

/-- WRITESTRING whose cells suffice: it emits exactly as many characters as its length field says, which are the first of
the characters that the cells from its operand on hold (`State.storedChars`), in their order; each is at most 0xFFF, and
nothing but `Output` and `IC` changes. R134, R138; decisions D17 and D18. -/
def Obligations.WriteStringEmitsTheLengthItsWordSays : Prop :=
  ∀ (s : State) (a : Nat), s.mem.inRange = true → a < 1000 →
    let length := (s.cell a).ip / 0x100
    let cs := (s.storedChars a).take length
    length ≤ (s.storedChars a).length →
    exec (.writeString a) s = .next { s with output := s.output ++ cs.map .char, ic := .fromInt (s.ic.toInt + 1) } ∧
    cs.length = length ∧ ∀ c ∈ cs, c ≤ 0xFFF

/-- WRITESTRING whose cells do not suffice, the one other case: it emits every character that the cells up to 999 hold, and
the read of cell 1000 is `AddressOutOfBounds`; `IC` is not advanced. The cells hold one or two characters each, the first
cell one. R134, R138; decisions D17 and D18. -/
def Obligations.WriteStringCutByTheEndOfMemory : Prop :=
  ∀ (s : State) (a : Nat), s.mem.inRange = true → a < 1000 →
    (1000 - a ≤ (s.storedChars a).length ∧ (s.storedChars a).length < 2 * (1000 - a)) ∧
    ((s.storedChars a).length < (s.cell a).ip / 0x100 →
      exec (.writeString a) s =
        .next { s with output := s.output ++ (s.storedChars a).map .char, run := .faulted .addressOutOfBounds } ∧
      ∀ c ∈ s.storedChars a, c ≤ 0xFFF)

/-- The string round trip: a string whose 3rd, 5th, 7th … characters are not 0, read by READSTRING and printed by
WRITESTRING from the same cell, is emitted exactly; the empty string emits nothing. R137, R138; decision D17. -/
def Obligations.StringRoundTrip : Prop :=
  ∀ (s : State) (a : Nat) (cs : List (Fin 256)) (rest : List Token), s.mem.wf = true →
    s.input = .string cs :: rest → cs.length ≤ 0xFFF → a + cs.length / 2 < 1000 →
    (∀ k c, 0 < k → cs[2 * k]? = some c → c ≠ 0) →
    ∃ t, exec (.readString a) s = .next t ∧
      exec (.writeString a) t = .next { t with
        output := s.output ++ cs.map (fun c => .char c.val), ic := .fromInt (s.ic.toInt + 1 + 1) }

/-- READ_DOUBLE takes the floating token and answers a next state, whatever the free Word that encodes it is: the Word, with
the sign of a zero dropped (R31), is stored and `IC` advances; or, when the Word overflows, the end is `WordOverflow` with
the memory and `IC` as before. R135; decisions D11 and D23; log entries 9 and 17. -/
def Obligations.ReadDoubleStoresTheEncodedToken : Prop :=
  ∀ (s : State) (a : Nat) (x : NativeDouble) (rest : List Token), a < 1000 → s.mem.wf = true →
    s.input = .double x :: rest →
    let tooBig := (Config.fromDouble x).overflow
    ∃ t, exec (.readDouble a) s = .next t ∧
      t = { s with
        mem := t.mem, input := rest
        ic := if tooBig then s.ic else .fromInt (s.ic.toInt + 1)
        run := if tooBig then .faulted .wordOverflow else s.run } ∧
      (t.cell a = if tooBig then s.cell a else (Config.fromDouble x).plusZero) ∧
      ∀ b, b ≠ a → t.cell b = s.cell b

/-- WRITE_DOUBLE emits the Word of the cell, fraction included, and no line break. R136; decision D16. -/
def Obligations.WriteDoubleEmitsTheWord : Prop :=
  ∀ (s : State) (a : Nat), a < 1000 → (s.cell a).overflow = false →
    exec (.writeDouble a) s = .next { s with
      output := s.output ++ [.double (s.cell a)], ic := .fromInt (s.ic.toInt + 1) }

/-! ### LOAD and STORE -/

/-- R150, whole: LOAD copies the whole Word of the cell, sign and fraction included, and nothing else changes. -/
def Obligations.LoadCopiesTheCell : Prop :=
  ∀ (s : State) (a : Nat), a < 1000 → (s.cell a).overflow = false →
    exec (.load a) s = .next { s with acc := s.cell a, ic := .fromInt (s.ic.toInt + 1) }

/-- R151, whole: STORE copies the whole accumulator into the cell and then makes the accumulator `ZERO`, whatever it
held; every other cell is as before. Neither check of the store can fail after steps 4 and 5. -/
def Obligations.StoreWritesTheCellAndClearsTheAccumulator : Prop :=
  ∀ (s : State) (a : Nat), a < 1000 → s.mem.wf = true → s.acc.overflow = false →
    ∃ t, exec (.store a) s = .next t ∧
      t = { s with mem := t.mem, acc := .zero, ic := .fromInt (s.ic.toInt + 1) } ∧
      t.cell a = s.acc ∧ ∀ b, b ≠ a → t.cell b = s.cell b

/-! ### Arithmetic instructions -/

/-- The floating-mode instructions put the free Word of the operation, the accumulator and the cell, in this order of the
operands and with the sign of a zero dropped (R31), into the accumulator; DIVIDE and REMAINDER do so when the exact value of
the divisor is not zero. The statement holds whatever the free Words are. R155 to R161; decisions D11, D23 and D24; log
entries 8 and 17. -/
def Obligations.FloatingArithmeticReplacesTheAccumulator : Prop :=
  ∀ (s : State) (a : Nat), a < 1000 → (s.cell a).overflow = false →
    let result (op : FloatOp) : Result :=
      .next { s with
        acc := (Config.floatResult op s.acc (s.cell a)).plusZero, ic := .fromInt (s.ic.toInt + 1) }
    exec (.addDouble a) s = result .add ∧ exec (.subtractDouble a) s = result .subtract ∧
    exec (.multiplyDouble a) s = result .multiply ∧ exec (.powerDouble a) s = result .power ∧
    ((s.cell a).val ≠ 0 →
      exec (.divideDouble a) s = result .divide ∧ exec (.remainderDouble a) s = result .remainder)

/-- A divisor that decodes to zero is `DivisionByZero`, before any arithmetic and whatever the dividend: in floating mode
one whose exact value is zero, in integer mode one whose integer part is zero. Nothing but `RUN` changes. R203, R158,
R160, R173, R175; decision D24. -/
def Obligations.ZeroDivisorIsDivisionByZero : Prop :=
  ∀ (s : State) (a : Nat), a < 1000 → (s.cell a).overflow = false →
    let fault : Result := .next { s with run := .faulted .divisionByZero }
    ((s.cell a).val = 0 → exec (.divideDouble a) s = fault ∧ exec (.remainderDouble a) s = fault) ∧
    ((s.cell a).ip = 0 → exec (.divideInt a) s = fault ∧ exec (.remainderInt a) s = fault)

/-- R171, R172 and R174, whole: the exact sum, difference (accumulator minus memory) and product of the integer parts
replace the accumulator whatever their size, and this cycle raises nothing. In a state that holds such a result in the
accumulator the next cycle, if it fetches, ends in `WordOverflow` when the magnitude is beyond 0xFFFFF, and passes step 4
otherwise. With an accumulator in range the magnitudes are bounded as the rules say. -/
def Obligations.IntegerAddSubtractMultiply : Prop :=
  (∀ (s : State) (a : Nat), a < 1000 → (s.cell a).overflow = false →
    let x := s.acc.toInt
    let y := (s.cell a).toInt
    let result (r : Int) : Result := .next { s with acc := .fromInt r, ic := .fromInt (s.ic.toInt + 1) }
    exec (.addInt a) s = result (x + y) ∧ exec (.subtractInt a) s = result (x - y) ∧
    exec (.multiplyInt a) s = result (x * y) ∧
    (s.acc.overflow = false →
      (x + y).natAbs ≤ 0x1FFFFE ∧ (x - y).natAbs ≤ 0x1FFFFE ∧ (x * y).natAbs ≤ 0xFFFFE00001)) ∧
  ∀ (t : State) (r : Int), t.acc = .fromInt r → t.run = .running → 0 ≤ t.ic.toInt → t.ic.toInt < 1000 →
    (t.cell t.ic.toInt.toNat).overflow = false →
    (0xFFFFF < r.natAbs → ∃ u, step t = .next u ∧ u.run = .faulted .wordOverflow) ∧
    (r.natAbs ≤ 0xFFFFF → ∀ i, decode (t.cell t.ic.toInt.toNat) = .ok i →
      (i.needsAddress = true → i.operand < 1000) → t.Ready i)

/-- DIVIDE_INT and REMAINDER_INT with a divisor whose integer part is not zero: quotient truncated toward zero, remainder
with the sign of the accumulator; never an overflow for an accumulator and a cell in range. R173, R175; decisions D4 and
D24. -/
def Obligations.IntegerDivideAndRemainder : Prop :=
  ∀ (s : State) (a : Nat), a < 1000 → (s.cell a).overflow = false → (s.cell a).toInt ≠ 0 →
    let q := s.acc.toInt.tdiv (s.cell a).toInt
    let r := s.acc.toInt.tmod (s.cell a).toInt
    exec (.divideInt a) s = .next { s with acc := .fromInt q, ic := .fromInt (s.ic.toInt + 1) } ∧
    exec (.remainderInt a) s = .next { s with acc := .fromInt r, ic := .fromInt (s.ic.toInt + 1) } ∧
    (s.acc.overflow = false → (Word.fromInt q).overflow = false) ∧ (Word.fromInt r).overflow = false

/-- POWER_INT completes for all operands that have a power, and raises nothing: the exact power for a cell of 0 or more; the
truncated rational for a negative cell and an accumulator that is not 0. `0` to a negative power has no value and is refused,
as R176, decision D5 and 93_implementation_defined.md U4 say (log entry 7). R176; decisions D3 and D5. -/
def Obligations.IntegerPowerCompletesWhereItHasAValue : Prop :=
  ∀ (s : State) (a : Nat), a < 1000 → (s.cell a).overflow = false →
    let x := s.acc.toInt
    let y := (s.cell a).toInt
    let result (r : Int) : Result := .next { s with acc := .fromInt r, ic := .fromInt (s.ic.toInt + 1) }
    (0 ≤ y → exec (.powerInt a) s = result (x ^ y.toNat)) ∧
    (y < 0 → x ≠ 0 → exec (.powerInt a) s = result (Int.tdiv 1 (x ^ (-y).toNat))) ∧
    (x = 0 → y < 0 → exec (.powerInt a) s = .refused .zeroToNegativePower)

/-! ### Control -/

/-- BRANCH sets `IC` to its operand, for every operand, and nothing else changes. R185; decision D6. -/
def Obligations.BranchGoesToItsOperand : Prop :=
  ∀ (s : State) (a : Nat), exec (.branch a) s = .next { s with ic := .fromInt a }

/-- BRANCHNEG and BRANCHZERO branch exactly when the exact value of the accumulator is negative or zero, and else
advance; nothing but `IC` changes. R186, R187; decisions D6 and D9. -/
def Obligations.ConditionalBranchesTestTheAccumulatorsValue : Prop :=
  ∀ (s : State) (a : Nat),
    let taken : Result := .next { s with ic := .fromInt a }
    let advanced : Result := .next { s with ic := .fromInt (s.ic.toInt + 1) }
    exec (.branchNeg a) s = (if s.acc.val < 0 then taken else advanced) ∧
    exec (.branchZero a) s = (if s.acc.val = 0 then taken else advanced)

/-- HALT stops the machine, for every operand, and nothing but `RUN` changes, `IC` included. R188; decision D22. -/
def Obligations.HaltStopsTheMachine : Prop :=
  ∀ (s : State) (a : Nat), exec (.halt a) s = .next { s with run := .halted }

/-! ### Negative zero and the comparison of Words -/

/-- A negative zero enters the machine by a loaded literal alone (R31; decision D11). Where no register and no cell holds
one, none does after a step, whatever the free Words are, and none after reset. The twelve arithmetic instructions leave no
negative zero in the accumulator, even when an operand is one, unless they end in a fault with the accumulator kept. -/
def Obligations.NegativeZeroIsNeverComputed : Prop :=
  State.reset.NoNegativeZero ∧
  (∀ s t : State, s.NoNegativeZero → step s = .next t → t.NoNegativeZero) ∧
  ∀ (s t : State) (a : Nat) (i : Instr),
    i ∈ [.addDouble a, .subtractDouble a, .divideDouble a, .multiplyDouble a, .remainderDouble a, .powerDouble a,
      .addInt a, .subtractInt a, .divideInt a, .multiplyInt a, .remainderInt a, .powerInt a] →
    exec i s = .next t → t.acc.isNegativeZero = true → ∃ k, t = { s with run := .faulted k }

/-- Words compare by their exact value and not by their text or triple: `compareTo` is the order of the values and `equals`
their equality; a Word equals what its text parses to, filled with zero digits or not; a zero digit after the fraction and
the sign of a zero make no difference; and the tests of the machine are comparisons: the sign and the zero test with `ZERO`,
overflow with `MAX_WORD` and `MIN_WORD`. R86, R43; decision D9. -/
def Obligations.WordsCompareByTheirExactValue : Prop :=
  (∀ a b : Word,
    (a.compareTo b = .lt ↔ a.val < b.val) ∧ (a.compareTo b = .eq ↔ a.val = b.val) ∧
    (a.compareTo b = .gt ↔ b.val < a.val) ∧ (a.equals b = true ↔ a.compareTo b = .eq) ∧
    (a.fr = [] → b.fr = [] → (a.compareTo b = .lt ↔ a.toInt < b.toInt))) ∧
  (∀ (w : Word) (n : Nat), (Word.parseWord (w.getString n)).equals w = true) ∧
  (∀ w : Word, Word.equals { w with fr := w.fr ++ [0] } w = true) ∧
  (∀ w : Word, w.isZero = true → Word.equals { w with neg := !w.neg } w = true) ∧
  ∀ w : Word,
    (w.isNegative = true ↔ w.compareTo .zero = .lt) ∧ (w.isZero = true ↔ w.equals .zero = true) ∧
    (w.overflow = true ↔ w.compareTo ⟨false, 0xFFFFF, []⟩ = .gt ∨ w.compareTo ⟨true, 0xFFFFF, []⟩ = .lt)
end

