-- ==== Sys2Proof/Laws/Codec.lean ====
section
/-! SUPPORT. Small facts of the codec that the proofs about cycles use. -/

namespace Sys2Proof
namespace Word

@[simp] theorem toInt_fromInt (n : Int) : (fromInt n).toInt = n := by
  unfold fromInt toInt
  by_cases h : n < 0 <;> simp only [h, decide_true, decide_false, if_true, Bool.false_eq_true, if_false] <;> omega

@[simp] theorem fr_fromInt (n : Int) : (fromInt n).fr = [] := rfl

@[simp] theorem ip_fromInt (n : Int) : (fromInt n).ip = n.natAbs := rfl

theorem overflow_iff (w : Word) :
    w.overflow = true ↔ 0xFFFFF < w.ip ∨ (w.ip = 0xFFFFF ∧ w.fracNonzero = true) := by
  show (decide (0xFFFFF < w.ip) || (decide (w.ip = 0xFFFFF) && w.fracNonzero)) = true ↔ _
  simp

theorem isZero_iff (w : Word) : w.isZero = true ↔ w.ip = 0 ∧ w.fracNonzero = false := by
  simp [isZero]

theorem isNegative_iff (w : Word) : w.isNegative = true ↔ w.neg = true ∧ w.isZero = false := by
  simp [isNegative]

/-- An integer Word overflows exactly beyond the largest magnitude. -/
theorem overflow_fromInt (n : Int) : (fromInt n).overflow = true ↔ 0xFFFFF < n.natAbs := by
  simp only [overflow_iff, ip_fromInt, fracNonzero, fr_fromInt, List.any_nil, Bool.false_eq_true, and_false, or_false]

theorem overflow_fromInt_false (n : Int) : (fromInt n).overflow = false ↔ n.natAbs ≤ 0xFFFFF := by
  rw [← Bool.not_eq_true, overflow_fromInt]; omega

/-- The integer part of a Word in range is in range. -/
theorem ip_le_of_overflow {w : Word} (h : w.overflow = false) : w.ip ≤ 0xFFFFF := by
  by_contra hc
  rw [(overflow_iff w).2 (.inl (by omega))] at h
  cases h

theorem natAbs_toInt (w : Word) : w.toInt.natAbs = w.ip := by
  unfold toInt; split <;> omega

@[simp] theorem fromInt_zero : fromInt 0 = zero := rfl

theorem isNegativeZero_iff (w : Word) : w.isNegativeZero = true ↔ w.neg = true ∧ w.isZero = true := by
  simp [isNegativeZero]

theorem isNegativeZero_of_neg {w : Word} (h : w.neg = false) : w.isNegativeZero = false := by
  simp [isNegativeZero, h]

/-- An integer Word is no negative zero (R31, R82). -/
@[simp] theorem isNegativeZero_fromInt (n : Int) : (fromInt n).isNegativeZero = false := by
  rw [← Bool.not_eq_true, isNegativeZero_iff, isZero_iff]
  rintro ⟨h1, h2, _⟩
  have h3 : n < 0 := of_decide_eq_true h1
  rw [ip_fromInt] at h2
  omega

@[simp] theorem isNegativeZero_plusZero (w : Word) : w.plusZero.isNegativeZero = false := by
  unfold plusZero
  split
  · exact isNegativeZero_of_neg rfl
  · next h => simp [isNegativeZero, h]

/-- Dropping the sign of a zero changes neither the magnitude nor the fraction, so nothing that the checks look at. -/
@[simp] theorem ip_plusZero (w : Word) : w.plusZero.ip = w.ip := by unfold plusZero; split <;> rfl

@[simp] theorem fr_plusZero (w : Word) : w.plusZero.fr = w.fr := by unfold plusZero; split <;> rfl

@[simp] theorem overflow_plusZero (w : Word) : w.plusZero.overflow = w.overflow := by
  simp only [overflow, fracNonzero, ip_plusZero, fr_plusZero]

end Word

theorem opcodeField_eq (w : Word) : opcodeField w = w.toInt.tdiv 4096 := rfl

theorem operandField_eq (w : Word) : operandField w = w.toInt.tmod 4096 := rfl

/-- Steps 3 and 6 together are the decoder on the fetched Word. -/
theorem decodeFields_fromInt (w : Word) :
    decodeFields (Word.fromInt (opcodeField w)).toInt (Word.fromInt (operandField w)).toInt = decode w := by
  simp [decodeFields, decode, decodeWith]

/-- What the decoder answers: the opcode map has the opcode, and the operand is the field. -/
theorem decodeWith_ok {num : Mnemonic → Nat} {w : Word} {i : Instr} (h : decodeWith num w = .ok i) :
    (num i.mnemonic : Int) = opcodeField w ∧ (i.operand : Int) = operandField w := by
  unfold decodeWith decodeFieldsWith at h
  split at h
  · cases h
  · next m hm =>
    split at h
    · cases h
    · next ht =>
      have hm' := List.find?_some hm
      simp only [Config.enabled, Bool.true_and, decide_eq_true_eq] at hm'
      cases h
      cases m <;> exact ⟨hm', by simp only [Instr.ofMnemonic, Instr.operand]; omega⟩

/-- The same for the opcode map of this hardware. -/
theorem decode_ok {w : Word} {i : Instr} (h : decode w = .ok i) :
    (opcodeNumber i.mnemonic : Int) = opcodeField w ∧ (i.operand : Int) = operandField w :=
  decodeWith_ok h

/-- A Word that is an instruction is not negative, and its operand fits the field. -/
theorem operand_lt_of_decode {w : Word} {i : Instr} (h : decode w = .ok i) :
    0 ≤ w.toInt ∧ i.operand < 0x1000 := by
  obtain ⟨hc, ht⟩ := decode_ok h
  have hpos : 0 < opcodeField w := by
    rw [← hc]
    have : ∀ m, 0 < opcodeNumber m := by intro m; cases m <;> decide
    exact_mod_cast this _
  have h0 : 0 ≤ w.toInt := by
    by_contra hn
    have h1 := Int.tdiv_nonneg (a := -w.toInt) (b := 4096) (by omega) (by decide)
    rw [Int.neg_tdiv] at h1
    rw [opcodeField_eq] at hpos
    omega
  refine ⟨h0, ?_⟩
  have := Int.tmod_lt_of_pos w.toInt (b := 4096) (by decide)
  rw [operandField_eq] at ht
  omega

/-- An instruction is its mnemonic and its operand. -/
theorem Instr.ofMnemonic_mnemonic (i : Instr) : Instr.ofMnemonic i.mnemonic i.operand = i := by cases i <;> rfl

theorem Mnemonic.mem_all (m : Mnemonic) : m ∈ Mnemonic.all := by cases m <;> decide

/-- In an opcode map with different numbers for different mnemonics the look-up of a number gives its mnemonic. -/
theorem mnemonicOf_number {num : Mnemonic → Nat} (h : Function.Injective num) (m : Mnemonic) :
    mnemonicOf num (num m) = some m := by
  unfold mnemonicOf
  cases hf : Mnemonic.all.find? (fun x => Config.enabled x && decide ((num x : Int) = num m)) with
  | none =>
    have := List.find?_eq_none.1 hf m (Mnemonic.mem_all m)
    simp [Config.enabled] at this
  | some x =>
    have := List.find?_some hf
    simp [Config.enabled] at this
    rw [h this]

/-- The integer part of a Word that is not negative is its integer value. -/
theorem Word.ip_of_nonneg {w : Word} (h : 0 ≤ w.toInt) : (w.ip : Int) = w.toInt := by
  have := w.natAbs_toInt
  omega

/-- The two fields of a Word whose integer value is `c * 0x1000 + t`. -/
theorem fields_of_value {w : Word} {c t : Nat} (h : w.toInt = ((c * 0x1000 + t : Nat) : Int)) (ht : t < 0x1000) :
    opcodeField w = c ∧ operandField w = t := by
  rw [opcodeField_eq, operandField_eq, h]
  constructor
  · rw [Int.tdiv_eq_ediv_of_nonneg (by omega)]
    omega
  · rw [Int.tmod_eq_emod_of_nonneg (by omega)]
    omega

end Sys2Proof
end

