-- ==== Sys2Proof/Laws/Memory.lean ====
section
/-! SUPPORT. The memory array: read after write, the canonical form and the range of the cells are kept by every write,
and memories in the canonical form with the same cells are the same list. -/

namespace Sys2Proof
namespace Machine
namespace Memory

@[simp] theorem get_nil (a : Nat) : get [] a = unlisted := rfl

theorem get_cons (b : Nat) (w : Word) (m : Memory) (a : Nat) :
    get ((b, w) :: m) a = if a = b then w else get m a := rfl

theorem wfFrom_cons (lo a : Nat) (w : Word) (m : Memory) :
    wfFrom lo ((a, w) :: m) = true ↔
      lo ≤ a ∧ a < Config.memorySize ∧ w ≠ unlisted ∧ wfFrom (a + 1) m = true := by
  simp [wfFrom, and_assoc]

theorem wfFrom_mono {lo lo' : Nat} (h : lo' ≤ lo) {m : Memory} (hm : wfFrom lo m = true) : wfFrom lo' m = true := by
  cases m with
  | nil => rfl
  | cons c m =>
    obtain ⟨a, w⟩ := c
    rw [wfFrom_cons] at *
    exact ⟨h.trans hm.1, hm.2⟩

/-- A cell below every listed address is not listed. -/
theorem get_below {lo : Nat} {m : Memory} (hm : wfFrom lo m = true) {a : Nat} (h : a < lo) : get m a = unlisted := by
  induction m generalizing lo with
  | nil => rfl
  | cons c m ih =>
    obtain ⟨b, w⟩ := c
    rw [wfFrom_cons] at hm
    rw [get_cons, if_neg (by omega)]
    exact ih hm.2.2.2 (by omega)

/-- Read after write of the same cell. -/
theorem get_set_same {lo : Nat} {m : Memory} (hm : wfFrom lo m = true) (a : Nat) (w : Word) :
    get (set m a w) a = w := by
  induction m generalizing lo with
  | nil => unfold set; split <;> simp_all [get_cons]
  | cons c m ih =>
    obtain ⟨b, v⟩ := c
    rw [wfFrom_cons] at hm
    unfold set
    split
    · next h =>
      split
      · next hw => rw [get_cons, if_neg (by omega), hw]; exact get_below hm.2.2.2 (by omega)
      · simp [get_cons]
    · split
      · next h =>
        split
        · next hw => rw [hw]; exact get_below hm.2.2.2 (by omega)
        · simp [get_cons]
      · next h => rw [get_cons, if_neg h]; exact ih hm.2.2.2

/-- A write leaves every other cell as it was. -/
theorem get_set_other {m : Memory} {a c : Nat} (w : Word) (h : c ≠ a) : get (set m a w) c = get m c := by
  induction m with
  | nil => unfold set; split <;> simp [get_cons, h]
  | cons b m ih =>
    obtain ⟨b, v⟩ := b
    unfold set
    split
    · split <;> simp [get_cons, h]
    · split
      · next hab => subst hab; split <;> simp [get_cons, h]
      · simp only [get_cons]; split
        · rfl
        · exact ih

/-- A write keeps the canonical form. -/
theorem wfFrom_set {lo : Nat} {m : Memory} (hm : wfFrom lo m = true) {a : Nat} (hlo : lo ≤ a)
    (ha : a < Config.memorySize) (w : Word) : wfFrom lo (set m a w) = true := by
  induction m generalizing lo with
  | nil => unfold set; split <;> simp_all [wfFrom]
  | cons c m ih =>
    obtain ⟨b, v⟩ := c
    have hm' := (wfFrom_cons lo b v m).1 hm
    unfold set
    split
    · next h =>
      split
      · exact hm
      · next hw =>
        rw [wfFrom_cons, wfFrom_cons]
        exact ⟨hlo, ha, hw, h, hm'.2⟩
    · split
      · next h =>
        split
        · exact wfFrom_mono (by omega) hm'.2.2.2
        · next hw => rw [wfFrom_cons]; subst h; exact ⟨hlo, ha, hw, hm'.2.2.2⟩
      · rw [wfFrom_cons]
        exact ⟨hm'.1, hm'.2.1, hm'.2.2.1, ih hm'.2.2.2 (by omega)⟩

/-- A write to a cell keeps the canonical form of the memory. -/
theorem wf_set {m : Memory} (hm : wf m = true) {a : Nat} (ha : a < Config.memorySize) (w : Word) :
    wf (set m a w) = true := wfFrom_set hm (Nat.zero_le a) ha w

theorem inRange_cons (b : Nat) (v : Word) (m : Memory) :
    inRange ((b, v) :: m) = true ↔ v.overflow = false ∧ inRange m = true := by
  simp [inRange]

/-- A property of the Words of all listed cells is kept by a write of a Word that has it. -/
theorem all_set {p : Word → Bool} {m : Memory} (hm : m.all (fun c => p c.2) = true) (a : Nat) {w : Word}
    (hw : p w = true) : (set m a w).all (fun c => p c.2) = true := by
  induction m with
  | nil => unfold set; split <;> simp [hw]
  | cons c m ih =>
    obtain ⟨b, v⟩ := c
    simp only [List.all_cons, Bool.and_eq_true] at hm
    unfold set
    split <;> split <;> try split
    all_goals simp only [List.all_cons, Bool.and_eq_true, hw, hm.1, hm.2, ih hm.2, and_self]

/-- A property of the Words of all listed cells and of the unlisted ones holds of every cell. -/
theorem all_get {p : Word → Bool} {m : Memory} (hm : m.all (fun c => p c.2) = true) (hu : p unlisted = true) (a : Nat) :
    p (get m a) = true := by
  induction m with
  | nil => exact hu
  | cons c m ih =>
    obtain ⟨b, v⟩ := c
    simp only [List.all_cons, Bool.and_eq_true] at hm
    rw [get_cons]
    split
    · exact hm.1
    · exact ih hm.2

/-- A write of a Word in range keeps every cell in range. -/
theorem inRange_set {m : Memory} (hm : inRange m = true) (a : Nat) {w : Word} (hw : w.overflow = false) :
    inRange (set m a w) = true := all_set (p := fun w => !w.overflow) hm a (by simp [hw])

/-- Every cell of a memory in range is in range (R30). -/
theorem overflow_get {m : Memory} (hm : inRange m = true) (a : Nat) : (get m a).overflow = false := by
  simpa using all_get (p := fun w => !w.overflow) hm (by decide) a

end Memory
end Machine
end Sys2Proof
end

