-- ==== Sys2Proof/Laws/State.lean ====
section
/-! SUPPORT. The fields of a state after each shared update, by definition: later proofs never unfold a record update. -/

namespace Sys2Proof
namespace Machine

@[simp] theorem raise_acc (k : Fault) (s : State) : (raise k s).acc = s.acc := rfl
@[simp] theorem raise_ic (k : Fault) (s : State) : (raise k s).ic = s.ic := rfl
@[simp] theorem raise_ir (k : Fault) (s : State) : (raise k s).ir = s.ir := rfl
@[simp] theorem raise_opc (k : Fault) (s : State) : (raise k s).opc = s.opc := rfl
@[simp] theorem raise_opd (k : Fault) (s : State) : (raise k s).opd = s.opd := rfl
@[simp] theorem raise_run (k : Fault) (s : State) : (raise k s).run = .faulted k := rfl
@[simp] theorem raise_mem (k : Fault) (s : State) : (raise k s).mem = s.mem := rfl
@[simp] theorem raise_input (k : Fault) (s : State) : (raise k s).input = s.input := rfl
@[simp] theorem raise_output (k : Fault) (s : State) : (raise k s).output = s.output := rfl
@[simp] theorem raise_cell (k : Fault) (s : State) (c : Nat) : (raise k s).cell c = s.cell c := rfl

@[simp] theorem advance_acc (s : State) : (advance s).acc = s.acc := rfl
@[simp] theorem advance_ic (s : State) : (advance s).ic = .fromInt (s.ic.toInt + 1) := rfl
@[simp] theorem advance_ir (s : State) : (advance s).ir = s.ir := rfl
@[simp] theorem advance_opc (s : State) : (advance s).opc = s.opc := rfl
@[simp] theorem advance_opd (s : State) : (advance s).opd = s.opd := rfl
@[simp] theorem advance_run (s : State) : (advance s).run = s.run := rfl
@[simp] theorem advance_mem (s : State) : (advance s).mem = s.mem := rfl
@[simp] theorem advance_input (s : State) : (advance s).input = s.input := rfl
@[simp] theorem advance_output (s : State) : (advance s).output = s.output := rfl
@[simp] theorem advance_cell (s : State) (c : Nat) : (advance s).cell c = s.cell c := rfl

@[simp] theorem branchTo_acc (a : Nat) (s : State) : (branchTo a s).acc = s.acc := rfl
@[simp] theorem branchTo_ic (a : Nat) (s : State) : (branchTo a s).ic = .fromInt a := rfl
@[simp] theorem branchTo_ir (a : Nat) (s : State) : (branchTo a s).ir = s.ir := rfl
@[simp] theorem branchTo_opc (a : Nat) (s : State) : (branchTo a s).opc = s.opc := rfl
@[simp] theorem branchTo_opd (a : Nat) (s : State) : (branchTo a s).opd = s.opd := rfl
@[simp] theorem branchTo_run (a : Nat) (s : State) : (branchTo a s).run = s.run := rfl
@[simp] theorem branchTo_mem (a : Nat) (s : State) : (branchTo a s).mem = s.mem := rfl
@[simp] theorem branchTo_input (a : Nat) (s : State) : (branchTo a s).input = s.input := rfl
@[simp] theorem branchTo_output (a : Nat) (s : State) : (branchTo a s).output = s.output := rfl
@[simp] theorem branchTo_cell (a : Nat) (s : State) (c : Nat) : (branchTo a s).cell c = s.cell c := rfl

@[simp] theorem emit_acc (e : Event) (s : State) : (emit e s).acc = s.acc := rfl
@[simp] theorem emit_ic (e : Event) (s : State) : (emit e s).ic = s.ic := rfl
@[simp] theorem emit_ir (e : Event) (s : State) : (emit e s).ir = s.ir := rfl
@[simp] theorem emit_opc (e : Event) (s : State) : (emit e s).opc = s.opc := rfl
@[simp] theorem emit_opd (e : Event) (s : State) : (emit e s).opd = s.opd := rfl
@[simp] theorem emit_run (e : Event) (s : State) : (emit e s).run = s.run := rfl
@[simp] theorem emit_mem (e : Event) (s : State) : (emit e s).mem = s.mem := rfl
@[simp] theorem emit_input (e : Event) (s : State) : (emit e s).input = s.input := rfl
@[simp] theorem emit_output (e : Event) (s : State) : (emit e s).output = s.output ++ [e] := rfl
@[simp] theorem emit_cell (e : Event) (s : State) (c : Nat) : (emit e s).cell c = s.cell c := rfl

@[simp] theorem State.fetched_acc (s : State) (w : Word) : (s.fetched w).acc = s.acc := rfl
@[simp] theorem State.fetched_ic (s : State) (w : Word) : (s.fetched w).ic = s.ic := rfl
@[simp] theorem State.fetched_ir (s : State) (w : Word) : (s.fetched w).ir = w := rfl
@[simp] theorem State.fetched_opc (s : State) (w : Word) : (s.fetched w).opc = .fromInt (opcodeField w) := rfl
@[simp] theorem State.fetched_opd (s : State) (w : Word) : (s.fetched w).opd = .fromInt (operandField w) := rfl
@[simp] theorem State.fetched_run (s : State) (w : Word) : (s.fetched w).run = s.run := rfl
@[simp] theorem State.fetched_mem (s : State) (w : Word) : (s.fetched w).mem = s.mem := rfl
@[simp] theorem State.fetched_input (s : State) (w : Word) : (s.fetched w).input = s.input := rfl
@[simp] theorem State.fetched_output (s : State) (w : Word) : (s.fetched w).output = s.output := rfl
@[simp] theorem State.fetched_cell (s : State) (w : Word) (c : Nat) : (s.fetched w).cell c = s.cell c := rfl

@[simp] theorem State.supply_acc (tok : Token) (s : State) : (s.supply tok).acc = s.acc := rfl
@[simp] theorem State.supply_ic (tok : Token) (s : State) : (s.supply tok).ic = s.ic := rfl
@[simp] theorem State.supply_ir (tok : Token) (s : State) : (s.supply tok).ir = s.ir := rfl
@[simp] theorem State.supply_opc (tok : Token) (s : State) : (s.supply tok).opc = s.opc := rfl
@[simp] theorem State.supply_opd (tok : Token) (s : State) : (s.supply tok).opd = s.opd := rfl
@[simp] theorem State.supply_run (tok : Token) (s : State) : (s.supply tok).run = s.run := rfl
@[simp] theorem State.supply_mem (tok : Token) (s : State) : (s.supply tok).mem = s.mem := rfl
@[simp] theorem State.supply_input (tok : Token) (s : State) : (s.supply tok).input = s.input ++ [tok] := rfl
@[simp] theorem State.supply_output (tok : Token) (s : State) : (s.supply tok).output = s.output := rfl
@[simp] theorem State.supply_cell (tok : Token) (s : State) (c : Nat) : (s.supply tok).cell c = s.cell c := rfl

/-- The state steps 1 to 3 leave, as one update of the three registers they write (R112, R113). -/
theorem State.fetched_eq (s : State) (w : Word) :
    s.fetched w = { s with ir := w, opc := .fromInt (opcodeField w), opd := .fromInt (operandField w) } := rfl

theorem State.front_eq (s : State) : s.front = s.fetched (s.cell s.ic.toInt.toNat) := rfl

@[simp] theorem State.front_acc (s : State) : s.front.acc = s.acc := rfl
@[simp] theorem State.front_ic (s : State) : s.front.ic = s.ic := rfl
@[simp] theorem State.front_ir (s : State) : s.front.ir = s.cell s.ic.toInt.toNat := rfl
@[simp] theorem State.front_opc (s : State) : s.front.opc = .fromInt (opcodeField (s.cell s.ic.toInt.toNat)) := rfl
@[simp] theorem State.front_opd (s : State) : s.front.opd = .fromInt (operandField (s.cell s.ic.toInt.toNat)) := rfl
@[simp] theorem State.front_run (s : State) : s.front.run = s.run := rfl
@[simp] theorem State.front_mem (s : State) : s.front.mem = s.mem := rfl
@[simp] theorem State.front_input (s : State) : s.front.input = s.input := rfl
@[simp] theorem State.front_output (s : State) : s.front.output = s.output := rfl
@[simp] theorem State.front_cell (s : State) (c : Nat) : s.front.cell c = s.cell c := rfl

/-- The cells of a state are those of its memory. -/
theorem State.cell_eq (s : State) (c : Nat) : s.cell c = s.mem.get c := rfl

/-- A cell after an update of the memory field. -/
@[simp] theorem State.cell_mk_mem (s : State) (m : Memory) (c : Nat) : State.cell { s with mem := m } c = m.get c := rfl

end Machine
end Sys2Proof
end

