-- ==== Sys2Proof/Laws/Ops.lean ====
section
/-! SUPPORT. For each shared operation, once, everything it can do. -/

namespace Sys2Proof
namespace Machine

theorem inBounds_iff (a : Int) : inBounds a = true ↔ 0 ≤ a ∧ a < 1000 := by
  show (decide (0 ≤ a) && decide (a < 1000)) = true ↔ _
  simp

theorem inBounds_nat (a : Nat) : inBounds (a : Int) = true ↔ a < 1000 := by
  rw [inBounds_iff]; omega

/-! ### The two memory primitives -/

theorem memRead_ok_iff {addr : Int} {s : State} {w : Word} :
    memRead addr s = .ok w ↔ inBounds addr = true ∧ (s.cell addr.toNat).overflow = false ∧ s.cell addr.toNat = w := by
  unfold memRead
  by_cases h1 : inBounds addr = true <;> by_cases h2 : (s.cell addr.toNat).overflow = true <;> simp [h1, h2]

theorem memRead_error_iff {addr : Int} {s : State} {k : Fault} :
    memRead addr s = .error k ↔ (inBounds addr = false ∧ k = .addressOutOfBounds) ∨
      (inBounds addr = true ∧ (s.cell addr.toNat).overflow = true ∧ k = .wordOverflow) := by
  unfold memRead
  by_cases h1 : inBounds addr = true <;> by_cases h2 : (s.cell addr.toNat).overflow = true <;> simp [h1, h2] <;>
    exact eq_comm

theorem memWrite_ok_iff {addr : Int} {w : Word} {s t : State} :
    memWrite addr w s = .ok t ↔ inBounds addr = true ∧ w.overflow = false ∧
      t = { s with mem := s.mem.set addr.toNat w } := by
  unfold memWrite
  by_cases h1 : inBounds addr = true <;> by_cases h2 : w.overflow = true <;> simp [h1, h2]
  exact eq_comm

theorem memWrite_error_iff {addr : Int} {w : Word} {s : State} {k : Fault} :
    memWrite addr w s = .error k ↔ (inBounds addr = false ∧ k = .addressOutOfBounds) ∨
      (inBounds addr = true ∧ w.overflow = true ∧ k = .wordOverflow) := by
  unfold memWrite
  by_cases h1 : inBounds addr = true <;> by_cases h2 : w.overflow = true <;> simp [h1, h2] <;>
    exact eq_comm

/-- The read of a cell that is in range. -/
theorem memRead_cell {a : Nat} {s : State} (ha : a < 1000) (hw : (s.cell a).overflow = false) :
    memRead a s = .ok (s.cell a) := memRead_ok_iff.2 ⟨(inBounds_nat a).2 ha, hw, rfl⟩

/-- The store of a Word in range to a cell. -/
theorem memWrite_cell {a : Nat} {w : Word} {s : State} (ha : a < 1000) (hw : w.overflow = false) :
    memWrite a w s = .ok { s with mem := s.mem.set a w } := memWrite_ok_iff.2 ⟨(inBounds_nat a).2 ha, hw, rfl⟩

/-! ### Read a cell, store a Word, take a token -/

/-- What an instruction that reads a cell first can do: go on with the cell's Word, or end in the fault of the read. -/
theorem withCell_cases (addr : Int) (s : State) (f : Word → Result) :
    (inBounds addr = true ∧ (s.cell addr.toNat).overflow = false ∧ withCell addr s f = f (s.cell addr.toNat)) ∨
      (inBounds addr = false ∧ withCell addr s f = .next (raise .addressOutOfBounds s)) ∨
      (inBounds addr = true ∧ (s.cell addr.toNat).overflow = true ∧
        withCell addr s f = .next (raise .wordOverflow s)) := by
  unfold withCell
  cases h : memRead addr s with
  | ok w => obtain ⟨h1, h2, h3⟩ := memRead_ok_iff.1 h; subst h3; exact .inl ⟨h1, h2, rfl⟩
  | error k =>
    obtain ⟨h1, rfl⟩ | ⟨h1, h2, rfl⟩ := memRead_error_iff.1 h
    · exact .inr (.inl ⟨h1, rfl⟩)
    · exact .inr (.inr ⟨h1, h2, rfl⟩)

theorem withCell_cell {a : Nat} {s : State} (f : Word → Result) (ha : a < 1000)
    (hw : (s.cell a).overflow = false) : withCell a s f = f (s.cell a) := by
  unfold withCell; rw [memRead_cell ha hw]

/-- What an instruction that stores a Word can do: go on with the Word in the cell, or end in the fault of the store,
with nothing stored. -/
theorem withStore_cases (addr : Int) (w : Word) (s : State) (f : State → Result) :
    (inBounds addr = true ∧ w.overflow = false ∧
        withStore addr w s f = f { s with mem := s.mem.set addr.toNat w }) ∨
      (inBounds addr = false ∧ withStore addr w s f = .next (raise .addressOutOfBounds s)) ∨
      (inBounds addr = true ∧ w.overflow = true ∧ withStore addr w s f = .next (raise .wordOverflow s)) := by
  unfold withStore
  cases h : memWrite addr w s with
  | ok w => obtain ⟨h1, h2, h3⟩ := memWrite_ok_iff.1 h; subst h3; exact .inl ⟨h1, h2, rfl⟩
  | error k =>
    obtain ⟨h1, rfl⟩ | ⟨h1, h2, rfl⟩ := memWrite_error_iff.1 h
    · exact .inr (.inl ⟨h1, rfl⟩)
    · exact .inr (.inr ⟨h1, h2, rfl⟩)

theorem withStore_cell {a : Nat} {w : Word} {s : State} (f : State → Result) (ha : a < 1000)
    (hw : w.overflow = false) : withStore a w s f = f { s with mem := s.mem.set a w } := by
  unfold withStore; rw [memWrite_cell ha hw]

/-- What a request to the input port gives: it blocks on an empty input, and a token it gives is the first one. -/
theorem inInt_cases (s : State) :
    (s.input = [] ∧ inInt s = .blocked) ∨
      (∃ n rest, s.input = .int n :: rest ∧ inInt s = .token n { s with input := rest }) ∨
      (∃ tok rest, s.input = tok :: rest ∧ (∀ n, tok ≠ .int n) ∧ inInt s = .wrongType) := by
  unfold inInt
  split <;> simp_all

theorem inDouble_cases (s : State) :
    (s.input = [] ∧ inDouble s = .blocked) ∨
      (∃ x rest, s.input = .double x :: rest ∧ inDouble s = .token x { s with input := rest }) ∨
      (∃ tok rest, s.input = tok :: rest ∧ (∀ x, tok ≠ .double x) ∧ inDouble s = .wrongType) := by
  unfold inDouble
  split <;> simp_all

theorem inString_cases (s : State) :
    (s.input = [] ∧ inString s = .blocked) ∨
      (∃ cs rest, s.input = .string cs :: rest ∧ inString s = .token cs { s with input := rest }) ∨
      (∃ tok rest, s.input = tok :: rest ∧ (∀ cs, tok ≠ .string cs) ∧ inString s = .wrongType) := by
  unfold inString
  split <;> simp_all

end Machine
end Sys2Proof
end

