-- ==== Sys2Proof/Laws/Strings.lean ====
section
/-! SUPPORT. What a string transfer can do: which Words it has written and which characters it has emitted when it ends or
is cut by a fault. -/

namespace Sys2Proof
namespace Machine

/-- `t` is `s` with the first `n` of the Words `ws` written from address `a` on, and nothing else changed. -/
structure Written (ws : List Word) (a n : Nat) (s t : State) : Prop where
  rest : t = { s with mem := t.mem }
  canonical : s.mem.wf = true → t.mem.wf = true
  inRange : s.mem.inRange = true → t.mem.inRange = true
  bound : n = 0 ∨ a + n ≤ 1000
  words : s.mem.wf = true → ∀ k, k < n → ∃ w, ws[k]? = some w ∧ t.cell (a + k) = w ∧ w.overflow = false
  others : ∀ b, b < a ∨ a + n ≤ b → t.cell b = s.cell b

theorem Written.nothing (ws : List Word) (a : Nat) (s : State) : Written ws a 0 s s :=
  ⟨rfl, id, id, .inl rfl, by simp, by simp⟩

/-- Writing one Word and then `n` more from the next address on. -/
theorem Written.cons {w : Word} {ws : List Word} {a n : Nat} {s t : State} (ha : a < 1000)
    (hw : w.overflow = false) (ht : Written ws (a + 1) n { s with mem := s.mem.set a w } t) :
    Written (w :: ws) a (n + 1) s t := by
  refine ⟨ht.rest, fun hs => ht.canonical (Memory.wf_set hs ha w), fun hr => ht.inRange (Memory.inRange_set hr a hw),
    .inr ?_, fun hs k hk => ?_, fun b hb => ?_⟩
  · rcases ht.bound with h0 | h0 <;> omega
  · cases k with
    | zero =>
      refine ⟨w, rfl, ?_, hw⟩
      rw [Nat.add_zero, ht.others a (.inl (by omega))]
      exact Memory.get_set_same hs a w
    | succ k =>
      obtain ⟨v, hv, hc, ho⟩ := ht.words (Memory.wf_set hs ha w) k (by omega)
      exact ⟨v, hv, by rw [← hc, show a + (k + 1) = a + 1 + k by omega], ho⟩
  · rw [ht.others b (by omega)]
    exact Memory.get_set_other w (by omega)

/-- `storeWords` writes all its Words, or the first `n` of them and then raises the fault of the next store. -/
theorem storeWords_cases (ws : List Word) (a : Nat) (s : State) :
    (∃ t, storeWords a ws s = .ok t ∧ Written ws a ws.length s t) ∨
      ∃ n w t k, ws[n]? = some w ∧ storeWords a ws s = .error (k, t) ∧ Written ws a n s t ∧
        ((k = .addressOutOfBounds ∧ 1000 ≤ a + n) ∨ (k = .wordOverflow ∧ a + n < 1000 ∧ w.overflow = true)) := by
  induction ws generalizing a s with
  | nil => exact .inl ⟨s, rfl, .nothing _ _ _⟩
  | cons w ws ih =>
    unfold storeWords
    cases h : memWrite a w s with
    | error k =>
      refine .inr ⟨0, w, s, k, rfl, rfl, .nothing _ _ _, ?_⟩
      obtain ⟨h1, rfl⟩ | ⟨h1, h2, rfl⟩ := memWrite_error_iff.1 h
      · have := mt (inBounds_nat a).2 (by simp [h1]); exact .inl ⟨rfl, by omega⟩
      · have := (inBounds_nat a).1 h1; exact .inr ⟨rfl, by omega, h2⟩
    | ok u =>
      obtain ⟨h1, h2, rfl⟩ := memWrite_ok_iff.1 h
      have ha := (inBounds_nat a).1 h1
      have hcast : ((a : Int) + 1) = ((a + 1 : Nat) : Int) := by omega
      obtain ⟨t, ht, hw⟩ | ⟨n, v, t, k, hv, ht, hw, hk⟩ := ih (a + 1) { s with mem := s.mem.set a w }
      · exact .inl ⟨t, by rw [← hcast] at ht; exact ht, hw.cons ha h2⟩
      · refine .inr ⟨n + 1, v, t, k, hv, by rw [← hcast] at ht; exact ht, hw.cons ha h2, ?_⟩
        rcases hk with ⟨rfl, h3⟩ | ⟨rfl, h3, h4⟩
        · exact .inl ⟨rfl, by omega⟩
        · exact .inr ⟨rfl, by omega, h4⟩

/-- `t` is `s` with the characters `cs` emitted and nothing else changed. -/
def Emitted (cs : List Nat) (s t : State) : Prop := t = { s with output := s.output ++ cs.map .char }

theorem Emitted.nil (s : State) : Emitted [] s s := by simp [Emitted]

theorem Emitted.cons {c : Nat} {cs : List Nat} {s t : State} (h : Emitted cs (emit (.char c) s) t) :
    Emitted (c :: cs) s t := by
  simp only [Emitted] at *; rw [h]; simp [emit]

/-- The two fields of a Word in range are a three-digit and a two-digit number (R89). -/
theorem fields_le {w : Word} (h : w.overflow = false) : w.upper ≤ 0xFFF ∧ w.lower ≤ 0xFF := by
  have := Word.ip_le_of_overflow h
  simp only [Word.upper, Word.lower, Config.strDiv]
  omega

/-- What the loop of `PrintString` can do: emit exactly the `n` characters asked for, each at most 0xFFF, or fewer and
then raise the fault of the next read. -/
theorem printRest_cases (n : Nat) (a : Int) (s : State) :
    ∃ cs t, Emitted cs s t ∧ (∀ c ∈ cs, c ≤ 0xFFF) ∧
      ((printRest n a s = .ok t ∧ cs.length = n) ∨
        ∃ k, printRest n a s = .error (k, t) ∧ cs.length < n ∧ (k = .addressOutOfBounds ∨ k = .wordOverflow)) := by
  induction n, a, s using printRest.induct with
  | case1 a s => exact ⟨[], s, .nil s, by simp, .inl ⟨by simp [printRest], rfl⟩⟩
  | case2 a s k h =>
    refine ⟨[], s, .nil s, by simp, .inr ⟨k, by simp [printRest, h], by simp, ?_⟩⟩
    obtain ⟨_, rfl⟩ | ⟨_, _, rfl⟩ := memRead_error_iff.1 h <;> simp
  | case3 a s w h =>
    obtain ⟨_, h2, h3⟩ := memRead_ok_iff.1 h
    rw [h3] at h2
    exact ⟨[w.upper], _, Emitted.cons (.nil _), by simpa using (fields_le h2).1, .inl ⟨by simp [printRest, h], rfl⟩⟩
  | case4 n a s k h =>
    refine ⟨[], s, .nil s, by simp, .inr ⟨k, by simp [printRest, h], by simp, ?_⟩⟩
    obtain ⟨_, rfl⟩ | ⟨_, _, rfl⟩ := memRead_error_iff.1 h <;> simp
  | case5 n a s w h hl ih =>
    obtain ⟨_, h2, h3⟩ := memRead_ok_iff.1 h
    rw [h3] at h2
    obtain ⟨cs, t, he, hc, hr⟩ := ih
    refine ⟨w.upper :: cs, t, he.cons, by simpa using ⟨(fields_le h2).1, hc⟩, ?_⟩
    simpa [printRest, h, hl] using hr
  | case6 n a s w h hl ih =>
    obtain ⟨_, h2, h3⟩ := memRead_ok_iff.1 h
    rw [h3] at h2
    obtain ⟨cs, t, he, hc, hr⟩ := ih
    have hlow : w.lower ≤ 0xFFF := (fields_le h2).2.trans (by decide)
    refine ⟨w.upper :: w.lower :: cs, t, (he.cons).cons, by simpa using ⟨(fields_le h2).1, hlow, hc⟩, ?_⟩
    simpa [printRest, h, hl] using hr

/-- What `PrintString` can do: emit exactly as many characters as the length field says, or be cut by a fault. -/
theorem printString_cases (a : Int) (s : State) :
    ∃ cs t, Emitted cs s t ∧ (∀ c ∈ cs, c ≤ 0xFFF) ∧
      ((printString a s = .ok t ∧ cs.length = (s.cell a.toNat).upper ∧ (s.cell a.toNat).overflow = false) ∨
        ∃ k, printString a s = .error (k, t) ∧ (k = .addressOutOfBounds ∨ k = .wordOverflow)) := by
  unfold printString
  cases h : memRead a s with
  | error k =>
    refine ⟨[], s, .nil s, by simp, .inr ⟨k, rfl, ?_⟩⟩
    obtain ⟨_, rfl⟩ | ⟨_, _, rfl⟩ := memRead_error_iff.1 h <;> simp
  | ok w =>
    obtain ⟨_, h2, rfl⟩ := memRead_ok_iff.1 h
    simp only
    split
    · next h0 => exact ⟨[], s, .nil s, by simp, .inl ⟨rfl, by simp [h0], h2⟩⟩
    · next h0 =>
      obtain ⟨cs, t, he, hc, hr⟩ := printRest_cases ((s.cell a.toNat).upper - 1) (a + 1)
        (emit (.char (s.cell a.toNat).lower) s)
      have hlow : (s.cell a.toNat).lower ≤ 0xFFF := (fields_le h2).2.trans (by decide)
      refine ⟨(s.cell a.toNat).lower :: cs, t, he.cons, by simpa using ⟨hlow, hc⟩, ?_⟩
      rcases hr with ⟨hr, hn⟩ | ⟨k, hr, _, hk⟩
      · exact .inl ⟨hr, by simp [hn]; omega, h2⟩
      · exact .inr ⟨k, hr, hk⟩

end Machine
end Sys2Proof
end

