-- ==== Sys2Proof/Laws/Exec.lean ====
section
/-! SUPPORT. Each instruction's meaning as the shared operation it is, by definition (the lemmas to
open a meaning with); and, once for all of them, everything an instruction that answers a next state can do to it. -/

namespace Sys2Proof
namespace Machine

theorem exec_readInt (a : Nat) (s : State) : exec (.readInt a) s =
    withToken (inInt s) s fun n s' => withStore a (.fromInt n) s' fun t => .next (advance t) := rfl
theorem exec_writeInt (a : Nat) (s : State) : exec (.writeInt a) s =
    withCell a s fun w => .next (advance (emit (.int w.toInt) s)) := rfl
theorem exec_newline (a : Nat) (s : State) : exec (.newline a) s = .next (advance (emit .newline s)) := rfl
theorem exec_readString (a : Nat) (s : State) : exec (.readString a) s =
    withToken (inString s) s fun cs s' => finishTransfer (storeString a cs s') := rfl
theorem exec_writeString (a : Nat) (s : State) : exec (.writeString a) s = finishTransfer (printString a s) := rfl
theorem exec_readDouble (a : Nat) (s : State) : exec (.readDouble a) s =
    withToken (inDouble s) s fun x s' => withStore a (encodeDouble x) s' fun t => .next (advance t) := rfl
theorem exec_writeDouble (a : Nat) (s : State) : exec (.writeDouble a) s =
    withCell a s fun w => .next (advance (emit (.double w) s)) := rfl
theorem exec_load (a : Nat) (s : State) : exec (.load a) s = withCell a s fun w => finishAcc w s := rfl
theorem exec_store (a : Nat) (s : State) : exec (.store a) s =
    withStore a s.acc s fun t => finishAcc .zero t := rfl
theorem exec_addDouble (a : Nat) (s : State) : exec (.addDouble a) s =
    withCell a s fun m => finishAcc (floatArith .add s.acc m) s := rfl
theorem exec_subtractDouble (a : Nat) (s : State) : exec (.subtractDouble a) s =
    withCell a s fun m => finishAcc (floatArith .subtract s.acc m) s := rfl
theorem exec_divideDouble (a : Nat) (s : State) : exec (.divideDouble a) s = withCell a s fun m =>
    if m.isZero then .next (raise .divisionByZero s) else finishAcc (floatArith .divide s.acc m) s := rfl
theorem exec_multiplyDouble (a : Nat) (s : State) : exec (.multiplyDouble a) s =
    withCell a s fun m => finishAcc (floatArith .multiply s.acc m) s := rfl
theorem exec_remainderDouble (a : Nat) (s : State) : exec (.remainderDouble a) s = withCell a s fun m =>
    if m.isZero then .next (raise .divisionByZero s) else finishAcc (floatArith .remainder s.acc m) s := rfl
theorem exec_powerDouble (a : Nat) (s : State) : exec (.powerDouble a) s =
    withCell a s fun m => finishAcc (floatArith .power s.acc m) s := rfl
theorem exec_addInt (a : Nat) (s : State) : exec (.addInt a) s =
    withCell a s fun m => finishAcc (intArith .add s.acc m) s := rfl
theorem exec_subtractInt (a : Nat) (s : State) : exec (.subtractInt a) s =
    withCell a s fun m => finishAcc (intArith .subtract s.acc m) s := rfl
theorem exec_divideInt (a : Nat) (s : State) : exec (.divideInt a) s = withCell a s fun m =>
    if m.toInt = 0 then .next (raise .divisionByZero s) else finishAcc (intArith .divide s.acc m) s := rfl
theorem exec_multiplyInt (a : Nat) (s : State) : exec (.multiplyInt a) s =
    withCell a s fun m => finishAcc (intArith .multiply s.acc m) s := rfl
theorem exec_remainderInt (a : Nat) (s : State) : exec (.remainderInt a) s = withCell a s fun m =>
    if m.toInt = 0 then .next (raise .divisionByZero s) else finishAcc (intArith .mod s.acc m) s := rfl
theorem exec_powerInt (a : Nat) (s : State) : exec (.powerInt a) s = withCell a s fun m =>
    if s.acc.toInt = 0 ∧ m.toInt < 0 then .refused .zeroToNegativePower
    else finishAcc (intArith .exponent s.acc m) s := rfl
theorem exec_branch (a : Nat) (s : State) : exec (.branch a) s = .next (branchTo a s) := rfl
theorem exec_branchNeg (a : Nat) (s : State) : exec (.branchNeg a) s =
    if s.acc.isNegative then .next (branchTo a s) else .next (advance s) := rfl
theorem exec_branchZero (a : Nat) (s : State) : exec (.branchZero a) s =
    if s.acc.isZero then .next (branchTo a s) else .next (advance s) := rfl
theorem exec_halt (a : Nat) (s : State) : exec (.halt a) s = .next { s with run := .halted } := rfl

/-! ### What an instruction can do, in one statement -/

/-- The instructions that can write the accumulator. -/
def writesAcc : Instr → Bool
  | .load _ | .store _ => true
  | .addDouble _ | .subtractDouble _ | .divideDouble _ | .multiplyDouble _ | .remainderDouble _ | .powerDouble _ => true
  | .addInt _ | .subtractInt _ | .divideInt _ | .multiplyInt _ | .remainderInt _ | .powerInt _ => true
  | _ => false

/-- The instructions that can write memory. -/
def writesMemory : Instr → Bool
  | .readInt _ | .readString _ | .readDouble _ | .store _ => true
  | _ => false

/-- The instructions that can append to the output. -/
def writesOutput : Instr → Bool
  | .writeInt _ | .newline _ | .writeString _ | .writeDouble _ => true
  | _ => false

/-- `IC` after an instruction that ends normally and is not HALT. -/
def nextCounter (i : Instr) (s : State) : Word :=
  match i with
  | .branch a => .fromInt a
  | .branchNeg a => if s.acc.isNegative then .fromInt a else .fromInt (s.ic.toInt + 1)
  | .branchZero a => if s.acc.isZero then .fromInt a else .fromInt (s.ic.toInt + 1)
  | _ => .fromInt (s.ic.toInt + 1)

/-- How an instruction ends: normally, in `Halted`, waiting for input, or in a fault. -/
inductive Ends (i : Instr) (s t : State) : Prop where
  | normally (run : t.run = s.run) (ic : t.ic = nextCounter i s) (notHalt : ∀ a, i ≠ .halt a)
      (token : readClass i = true → s.input ≠ [])
  | halted (a : Nat) (halt : i = .halt a) (eq : t = { s with run := .halted })
  | waiting (read : readClass i = true) (noToken : s.input = []) (eq : t = s)
  | faulted (k : Fault) (run : t.run = .faulted k) (kind : k ≠ .programCounterOutOfBounds) (ic : t.ic = s.ic)
      (acc : t.acc = s.acc)
      (mem : t.mem = s.mem ∨ ∃ a, i = .readString a ∧ ∀ b, b < a → t.cell b = s.cell b)
      (output : t.output = s.output ∨ ∃ (a : Nat) (cs : List Nat), i = .writeString a ∧
        t.output = s.output ++ cs.map .char)

/-- Everything an instruction that answers a next state can do to it. -/
structure Effect (i : Instr) (s t : State) : Prop where
  ir : t.ir = s.ir
  opc : t.opc = s.opc
  opd : t.opd = s.opd
  ends : Ends i s t
  acc : t.acc = s.acc ∨ writesAcc i = true
  mem : t.mem = s.mem ∨ writesMemory i = true
  canonical : s.mem.wf = true → t.mem.wf = true
  inRange : s.mem.inRange = true → t.mem.inRange = true
  output : ∃ es, t.output = s.output ++ es ∧ (es ≠ [] → writesOutput i = true) ∧ ∀ c, Event.char c ∈ es → c ≤ 0xFFF
  input : t.input = s.input ∨ (readClass i = true ∧ ∃ tok, s.input = tok :: t.input)

theorem Effect.raise (i : Instr) (s : State) {k : Fault} (hk : k ≠ .programCounterOutOfBounds) :
    Effect i s (Machine.raise k s) :=
  ⟨rfl, rfl, rfl, .faulted k rfl hk rfl rfl (.inl rfl) (.inl rfl), .inl rfl, .inl rfl, id, id,
    ⟨[], by simp, by simp, by simp⟩, .inl rfl⟩

/-- A normal end with nothing changed but the accumulator, the output and `IC`. -/
theorem Effect.normal {i : Instr} {s : State} (w : Word) (es : List Event) (hn : ∀ a, i ≠ .halt a)
    (hr : readClass i = false) (ha : w = s.acc ∨ writesAcc i = true)
    (he : es ≠ [] → writesOutput i = true) (hc : ∀ c, Event.char c ∈ es → c ≤ 0xFFF) :
    Effect i s { s with acc := w, output := s.output ++ es, ic := nextCounter i s } :=
  ⟨rfl, rfl, rfl, .normally rfl rfl hn (by simp [hr]), ha, .inl rfl, id, id, ⟨es, rfl, he, hc⟩, .inl rfl⟩

/-- An instruction that reads a cell has the effect of what it goes on with. -/
theorem effect_withCell {i : Instr} {a : Nat} {s t : State} {f : Word → Result} (h : withCell a s f = .next t)
    (hf : (s.cell a).overflow = false → f (s.cell a) = .next t → Effect i s t) : Effect i s t := by
  obtain ⟨_, h2, h3⟩ | ⟨_, h3⟩ | ⟨_, _, h3⟩ := withCell_cases a s f
  · exact hf h2 (h3.symm.trans h)
  · rw [h3] at h; cases h; exact .raise i s (by simp)
  · rw [h3] at h; cases h; exact .raise i s (by simp)

/-- The instructions whose result replaces the accumulator. -/
theorem effect_finishAcc {i : Instr} {s t : State} {w : Word} (h : finishAcc w s = .next t)
    (ha : writesAcc i = true) (hc : nextCounter i s = .fromInt (s.ic.toInt + 1)) (hn : ∀ a, i ≠ .halt a)
    (hr : readClass i = false) : Effect i s t := by
  cases h
  have := Effect.normal (i := i) (s := s) w [] hn hr (.inr ha) (by simp) (by simp)
  rw [hc, List.append_nil] at this
  exact this

/-- The same after a check of the divisor. -/
theorem effect_divide {i : Instr} {s t : State} {w : Word} {p : Prop} [Decidable p]
    (h : (if p then .next (raise .divisionByZero s) else finishAcc w s) = Host.Outcome.next t)
    (ha : writesAcc i = true) (hc : nextCounter i s = .fromInt (s.ic.toInt + 1)) (hn : ∀ a, i ≠ .halt a)
    (hr : readClass i = false) : Effect i s t := by
  split at h
  · cases h; exact .raise i s (by simp)
  · exact effect_finishAcc h ha hc hn hr

/-- The instructions that emit one event that is no character. -/
theorem effect_emit {i : Instr} {s t : State} {e : Event} (h : (.next (advance (emit e s)) : Result) = .next t)
    (he : ∀ c, e ≠ .char c) (ho : writesOutput i = true) (hc : nextCounter i s = .fromInt (s.ic.toInt + 1))
    (hn : ∀ a, i ≠ .halt a) (hr : readClass i = false) : Effect i s t := by
  cases h
  have := Effect.normal (i := i) (s := s) s.acc [e] hn hr (.inl rfl) (fun _ => ho)
    (fun c hm => absurd (List.mem_singleton.1 hm).symm (he c))
  rw [hc] at this
  exact this

/-- READ_INT and READ_DOUBLE: what the store of the Word that the token gives can do. -/
theorem effect_readStore {i : Instr} {a : Nat} {s t : State} {w : Word} {tok : Token} {rest : List Token}
    (hi : s.input = tok :: rest)
    (h : withStore a w { s with input := rest } (fun u => .next (advance u)) = .next t)
    (hr : readClass i = true) (hm : writesMemory i = true) (hn : ∀ a, i ≠ .halt a)
    (hc : nextCounter i s = .fromInt (s.ic.toInt + 1)) : Effect i s t := by
  obtain ⟨h1, h2, h3⟩ | ⟨_, h3⟩ | ⟨_, _, h3⟩ := withStore_cases a w { s with input := rest } (fun u => .next (advance u))
  · rw [h3] at h; cases h
    exact ⟨rfl, rfl, rfl, .normally rfl hc.symm hn (by simp [hi]), .inl rfl, .inr hm,
      fun hw => Memory.wf_set hw ((inBounds_nat a).1 h1) w, fun hw => Memory.inRange_set hw a h2,
      ⟨[], by simp, by simp, by simp⟩, .inr ⟨hr, tok, hi⟩⟩
  · rw [h3] at h; cases h
    exact ⟨rfl, rfl, rfl, .faulted _ rfl (by simp) rfl rfl (.inl rfl) (.inl rfl), .inl rfl, .inl rfl, id, id,
      ⟨[], by simp, by simp, by simp⟩, .inr ⟨hr, tok, hi⟩⟩
  · rw [h3] at h; cases h
    exact ⟨rfl, rfl, rfl, .faulted _ rfl (by simp) rfl rfl (.inl rfl) (.inl rfl), .inl rfl, .inl rfl, id, id,
      ⟨[], by simp, by simp, by simp⟩, .inr ⟨hr, tok, hi⟩⟩

/-- A READ-class instruction that waits. -/
theorem Effect.wait {i : Instr} {s : State} (hr : readClass i = true) (hi : s.input = []) : Effect i s s :=
  ⟨rfl, rfl, rfl, .waiting hr hi rfl, .inl rfl, .inl rfl, id, id, ⟨[], by simp, by simp, by simp⟩, .inl rfl⟩

/-- READSTRING once its token is there. -/
theorem effect_readString {a : Nat} {s t : State} {cs : List (Fin 256)} {tok : Token} {rest : List Token}
    (hi : s.input = tok :: rest) (h : finishTransfer (storeString a cs { s with input := rest }) = .next t) :
    Effect (.readString a) s t := by
  unfold storeString at h
  obtain ⟨u, hu, hw⟩ | ⟨n, w, u, k, _, hu, hw, hk⟩ := storeWords_cases (packString cs) a { s with input := rest }
  · rw [hu] at h; cases h
    have hr := hw.rest
    refine ⟨?_, ?_, ?_, .normally ?_ ?_ (by simp) (by simp [hi]), .inl ?_, .inr rfl, hw.canonical, hw.inRange,
      ⟨[], ?_, by simp, by simp⟩, .inr ⟨rfl, tok, ?_⟩⟩ <;> simp only [advance_ir, advance_opc, advance_opd, advance_run,
        advance_ic, advance_acc, advance_output, advance_input] <;> rw [hr] <;> simp [nextCounter, hi]
  · rw [hu] at h; cases h
    have hr := hw.rest
    refine ⟨?_, ?_, ?_, .faulted k rfl ?_ ?_ ?_ (.inr ⟨a, rfl, fun b hb => hw.others b (.inl hb)⟩) (.inl ?_), .inl ?_,
      .inr rfl, hw.canonical, hw.inRange, ⟨[], ?_, by simp, by simp⟩, .inr ⟨rfl, tok, ?_⟩⟩
    case refine_4 => rcases hk with ⟨rfl, _⟩ | ⟨rfl, _⟩ <;> simp
    all_goals simp only [raise_ir, raise_opc, raise_opd, raise_ic, raise_acc, raise_output, raise_input]
    all_goals rw [hr]
    all_goals simp [hi]

/-- WRITESTRING. -/
theorem effect_writeString {a : Nat} {s t : State} (h : finishTransfer (printString a s) = .next t) :
    Effect (.writeString a) s t := by
  obtain ⟨cs, u, he, hc, ⟨hu, _⟩ | ⟨k, hu, hk⟩⟩ := printString_cases a s
  · rw [hu] at h; cases h
    rw [he]
    exact Effect.normal (i := .writeString a) s.acc (cs.map .char) (by simp) rfl (.inl rfl) (fun _ => rfl)
      (by simpa using hc)
  · rw [hu] at h; cases h
    rw [he]
    exact ⟨rfl, rfl, rfl, .faulted k rfl (by rcases hk with rfl | rfl <;> simp) rfl rfl (.inl rfl)
      (.inr ⟨a, cs, rfl, rfl⟩), .inl rfl, .inl rfl, id, id, ⟨cs.map .char, rfl, fun _ => rfl, by simpa using hc⟩, .inl rfl⟩

/-- Everything an instruction can do when it answers a next state. -/
theorem exec_effect {i : Instr} {s t : State} (h : exec i s = .next t) : Effect i s t := by
  cases i with
  | readInt a =>
    rw [exec_readInt] at h
    obtain ⟨hi, hq⟩ | ⟨n, rest, hi, hq⟩ | ⟨_, _, _, _, hq⟩ := inInt_cases s <;> rw [hq] at h
    · cases h; exact .wait rfl hi
    · simp only [withToken] at h
      exact effect_readStore hi h rfl rfl (by simp) rfl
    · cases h
  | readDouble a =>
    rw [exec_readDouble] at h
    obtain ⟨hi, hq⟩ | ⟨n, rest, hi, hq⟩ | ⟨_, _, _, _, hq⟩ := inDouble_cases s <;> rw [hq] at h
    · cases h; exact .wait rfl hi
    · simp only [withToken] at h
      exact effect_readStore hi h rfl rfl (by simp) rfl
    · cases h
  | readString a =>
    rw [exec_readString] at h
    obtain ⟨hi, hq⟩ | ⟨n, rest, hi, hq⟩ | ⟨_, _, _, _, hq⟩ := inString_cases s <;> rw [hq] at h
    · cases h; exact .wait rfl hi
    · exact effect_readString hi h
    · cases h
  | writeInt a =>
    rw [exec_writeInt] at h
    exact effect_withCell h fun _ h => effect_emit h (by simp) rfl rfl (by simp) rfl
  | newline a => rw [exec_newline] at h; exact effect_emit h (by simp) rfl rfl (by simp) rfl
  | writeString a => rw [exec_writeString] at h; exact effect_writeString h
  | writeDouble a =>
    rw [exec_writeDouble] at h
    exact effect_withCell h fun _ h => effect_emit h (by simp) rfl rfl (by simp) rfl
  | load a => rw [exec_load] at h; exact effect_withCell h fun _ h => effect_finishAcc h rfl rfl (by simp) rfl
  | store a =>
    rw [exec_store] at h
    obtain ⟨h1, h2, h3⟩ | ⟨_, h3⟩ | ⟨_, _, h3⟩ := withStore_cases a s.acc s (fun t => finishAcc .zero t) <;>
      rw [h3] at h <;> cases h
    · exact ⟨rfl, rfl, rfl, .normally rfl rfl (by simp) (by simp [readClass]), .inr rfl, .inr rfl,
        fun hw => Memory.wf_set hw ((inBounds_nat a).1 h1) _, fun hw => Memory.inRange_set hw a h2,
        ⟨[], by simp [advance], by simp, by simp⟩, .inl rfl⟩
    · exact .raise _ s (by simp)
    · exact .raise _ s (by simp)
  | addDouble a => rw [exec_addDouble] at h; exact effect_withCell h fun _ h => effect_finishAcc h rfl rfl (by simp) rfl
  | subtractDouble a =>
    rw [exec_subtractDouble] at h; exact effect_withCell h fun _ h => effect_finishAcc h rfl rfl (by simp) rfl
  | divideDouble a => rw [exec_divideDouble] at h; exact effect_withCell h fun _ h => effect_divide h rfl rfl (by simp) rfl
  | multiplyDouble a =>
    rw [exec_multiplyDouble] at h; exact effect_withCell h fun _ h => effect_finishAcc h rfl rfl (by simp) rfl
  | remainderDouble a =>
    rw [exec_remainderDouble] at h; exact effect_withCell h fun _ h => effect_divide h rfl rfl (by simp) rfl
  | powerDouble a =>
    rw [exec_powerDouble] at h; exact effect_withCell h fun _ h => effect_finishAcc h rfl rfl (by simp) rfl
  | addInt a => rw [exec_addInt] at h; exact effect_withCell h fun _ h => effect_finishAcc h rfl rfl (by simp) rfl
  | subtractInt a =>
    rw [exec_subtractInt] at h; exact effect_withCell h fun _ h => effect_finishAcc h rfl rfl (by simp) rfl
  | divideInt a => rw [exec_divideInt] at h; exact effect_withCell h fun _ h => effect_divide h rfl rfl (by simp) rfl
  | multiplyInt a =>
    rw [exec_multiplyInt] at h; exact effect_withCell h fun _ h => effect_finishAcc h rfl rfl (by simp) rfl
  | remainderInt a => rw [exec_remainderInt] at h; exact effect_withCell h fun _ h => effect_divide h rfl rfl (by simp) rfl
  | powerInt a =>
    rw [exec_powerInt] at h
    refine effect_withCell h fun _ h => ?_
    split at h
    · cases h
    · exact effect_finishAcc h rfl rfl (by simp) rfl
  | branch a =>
    rw [exec_branch] at h; cases h
    exact ⟨rfl, rfl, rfl, .normally rfl rfl (by simp) (by simp [readClass]), .inl rfl, .inl rfl, id, id,
      ⟨[], by simp, by simp, by simp⟩, .inl rfl⟩
  | branchNeg a =>
    rw [exec_branchNeg] at h
    split at h <;> cases h <;>
      exact ⟨rfl, rfl, rfl, .normally rfl (by simp [nextCounter, *]) (by simp) (by simp [readClass]), .inl rfl, .inl rfl, id,
        id, ⟨[], by simp, by simp, by simp⟩, .inl rfl⟩
  | branchZero a =>
    rw [exec_branchZero] at h
    split at h <;> cases h <;>
      exact ⟨rfl, rfl, rfl, .normally rfl (by simp [nextCounter, *]) (by simp) (by simp [readClass]), .inl rfl, .inl rfl, id,
        id, ⟨[], by simp, by simp, by simp⟩, .inl rfl⟩
  | halt a =>
    rw [exec_halt] at h; cases h
    exact ⟨rfl, rfl, rfl, .halted a rfl rfl, .inl rfl, .inl rfl, id, id, ⟨[], by simp, by simp, by simp⟩, .inl rfl⟩

end Machine
end Sys2Proof
end

