-- ==== Sys2Proof/Laws/NegativeZero.lean ====
section
/-! SUPPORT. Where a negative zero can come from (R31): what an instruction leaves in the accumulator and in a cell is a
Word the state held before, or no negative zero. -/

namespace Sys2Proof
namespace Machine

@[simp] theorem isNegativeZero_intArith (op : IntOp) (a b : Word) : (intArith op a b).isNegativeZero = false :=
  Word.isNegativeZero_fromInt _

@[simp] theorem isNegativeZero_floatArith (op : FloatOp) (a b : Word) : (floatArith op a b).isNegativeZero = false :=
  Word.isNegativeZero_plusZero _

@[simp] theorem isNegativeZero_encodeDouble (x : NativeDouble) : (encodeDouble x).isNegativeZero = false :=
  Word.isNegativeZero_plusZero _

theorem isNegativeZero_packPairs (cs : List (Fin 256)) {w : Word} (h : w ∈ packPairs cs) : w.isNegativeZero = false := by
  induction cs using packPairs.induct with
  | case1 => simp [packPairs] at h
  | case2 c =>
    rw [packPairs, List.mem_singleton] at h
    rw [h]
    exact Word.isNegativeZero_fromInt _
  | case3 c d rest ih =>
    rw [packPairs, List.mem_cons] at h
    rcases h with rfl | h
    · exact Word.isNegativeZero_fromInt _
    · exact ih h

/-- The Words of a packed string are no negative zeros. -/
theorem isNegativeZero_packString (cs : List (Fin 256)) {w : Word} (h : w ∈ packString cs) :
    w.isNegativeZero = false := by
  cases cs with
  | nil =>
    rw [packString, List.mem_singleton] at h
    rw [h]
    exact Word.isNegativeZero_fromInt 0
  | cons c rest =>
    rw [packString, List.mem_cons] at h
    rcases h with rfl | h
    · exact Word.isNegativeZero_fromInt _
    · exact isNegativeZero_packPairs rest h

/-- Where the Words of the new accumulator and of each new cell come from. -/
structure Origin (s t : State) : Prop where
  acc : t.acc = s.acc ∨ (∃ b, t.acc = s.cell b) ∨ t.acc.isNegativeZero = false
  cells : s.mem.wf = true → ∀ b, t.cell b = s.cell b ∨ t.cell b = s.acc ∨ (t.cell b).isNegativeZero = false

/-- The memory is the old one and the accumulator too. -/
theorem Origin.same {s t : State} (ha : t.acc = s.acc) (hm : t.mem = s.mem) : Origin s t :=
  ⟨.inl ha, fun _ b => .inl (by rw [State.cell_eq, State.cell_eq, hm])⟩

theorem origin_withCell {a : Nat} {s t : State} {f : Word → Result} (h : withCell a s f = .next t)
    (hf : f (s.cell a) = .next t → Origin s t) : Origin s t := by
  obtain ⟨_, _, h3⟩ | ⟨_, h3⟩ | ⟨_, _, h3⟩ := withCell_cases a s f
  · exact hf (h3.symm.trans h)
  · rw [h3] at h; cases h; exact .same rfl rfl
  · rw [h3] at h; cases h; exact .same rfl rfl

theorem origin_finishAcc {s t : State} {w : Word} (h : finishAcc w s = .next t)
    (hw : (∃ b, w = s.cell b) ∨ w.isNegativeZero = false) : Origin s t := by
  cases h
  exact ⟨.inr hw, fun _ _ => .inl rfl⟩

theorem origin_divide {s t : State} {w : Word} {p : Prop} [Decidable p]
    (h : (if p then .next (raise .divisionByZero s) else finishAcc w s) = Host.Outcome.next t)
    (hw : w.isNegativeZero = false) : Origin s t := by
  split at h
  · cases h; exact .same rfl rfl
  · exact origin_finishAcc h (.inr hw)

theorem origin_store {a : Nat} {w v : Word} {s t : State} (hw : w = s.acc ∨ w.isNegativeZero = false)
    (hv : v = s.acc ∨ v.isNegativeZero = false) (ht : t.mem = s.mem.set a w) (ha : t.acc = v) : Origin s t := by
  refine ⟨ha ▸ hv.imp_right .inr, fun hm b => ?_⟩
  rw [State.cell_eq, State.cell_eq, ht]
  by_cases hb : b = a
  · rw [hb, Memory.get_set_same hm]; exact .inr hw
  · exact .inl (Memory.get_set_other w hb)

/-- READ_INT and READ_DOUBLE. -/
theorem origin_readStore {a : Nat} {s t : State} {w : Word} {rest : List Token} (hw : w.isNegativeZero = false)
    (h : withStore a w { s with input := rest } (fun u => .next (advance u)) = .next t) : Origin s t := by
  obtain ⟨_, _, h3⟩ | ⟨_, h3⟩ | ⟨_, _, h3⟩ := withStore_cases a w { s with input := rest } (fun u => .next (advance u))
  · rw [h3] at h; cases h; exact origin_store (.inr hw) (.inl rfl) rfl rfl
  · rw [h3] at h; cases h; exact .same rfl rfl
  · rw [h3] at h; cases h; exact .same rfl rfl

theorem origin_written {ws : List Word} {a n : Nat} {s u t : State} (hw : Written ws a n u t) (hs : u.mem = s.mem)
    (ha : u.acc = s.acc) (hz : ∀ w ∈ ws, w.isNegativeZero = false) : Origin s t := by
  refine ⟨.inl (by rw [hw.rest, ← ha]), fun hm b => ?_⟩
  by_cases hb : b < a ∨ a + n ≤ b
  · exact .inl (by rw [hw.others b hb, State.cell_eq, hs, ← State.cell_eq])
  · obtain ⟨w, h1, h2, _⟩ := hw.words (hs ▸ hm) (b - a) (by omega)
    rw [show a + (b - a) = b by omega] at h2
    exact .inr (.inr (h2 ▸ hz w (List.mem_of_getElem? h1)))

/-- Everything an instruction that answers a next state leaves in the accumulator and in the cells. -/
theorem exec_origin {i : Instr} {s t : State} (h : exec i s = .next t) : Origin s t := by
  cases i with
  | readInt a =>
    rw [exec_readInt] at h
    obtain ⟨_, hq⟩ | ⟨n, rest, _, hq⟩ | ⟨_, _, _, _, hq⟩ := inInt_cases s <;> rw [hq] at h
    · cases h; exact .same rfl rfl
    · simp only [withToken] at h
      exact origin_readStore (Word.isNegativeZero_fromInt n) h
    · cases h
  | readDouble a =>
    rw [exec_readDouble] at h
    obtain ⟨_, hq⟩ | ⟨x, rest, _, hq⟩ | ⟨_, _, _, _, hq⟩ := inDouble_cases s <;> rw [hq] at h
    · cases h; exact .same rfl rfl
    · simp only [withToken] at h
      exact origin_readStore (isNegativeZero_encodeDouble x) h
    · cases h
  | readString a =>
    rw [exec_readString] at h
    obtain ⟨_, hq⟩ | ⟨cs, rest, _, hq⟩ | ⟨_, _, _, _, hq⟩ := inString_cases s <;> rw [hq] at h
    · cases h; exact .same rfl rfl
    · simp only [withToken, storeString] at h
      obtain ⟨u, hu, hw⟩ | ⟨n, w, u, k, _, hu, hw, _⟩ := storeWords_cases (packString cs) a { s with input := rest } <;>
        rw [hu] at h <;> cases h <;>
        have ho := origin_written (s := s) hw rfl rfl fun _ => isNegativeZero_packString cs
      · exact ⟨ho.acc, ho.cells⟩
      · exact ⟨ho.acc, ho.cells⟩
    · cases h
  | writeInt a => rw [exec_writeInt] at h; exact origin_withCell h fun h => by cases h; exact .same rfl rfl
  | newline a => rw [exec_newline] at h; cases h; exact .same rfl rfl
  | writeString a =>
    rw [exec_writeString] at h
    obtain ⟨cs, u, he, _, ⟨hu, _⟩ | ⟨k, hu, _⟩⟩ := printString_cases a s <;> rw [hu] at h <;> cases h <;> rw [he] <;>
      exact .same rfl rfl
  | writeDouble a => rw [exec_writeDouble] at h; exact origin_withCell h fun h => by cases h; exact .same rfl rfl
  | load a => rw [exec_load] at h; exact origin_withCell h fun h => origin_finishAcc h (.inl ⟨a, rfl⟩)
  | store a =>
    rw [exec_store] at h
    obtain ⟨_, _, h3⟩ | ⟨_, h3⟩ | ⟨_, _, h3⟩ := withStore_cases a s.acc s (fun t => finishAcc .zero t) <;>
      rw [h3] at h <;> cases h
    · exact origin_store (.inl rfl) (.inr (Word.isNegativeZero_fromInt 0)) rfl rfl
    · exact .same rfl rfl
    · exact .same rfl rfl
  | addDouble a => rw [exec_addDouble] at h; exact origin_withCell h fun h => origin_finishAcc h (.inr (by simp))
  | subtractDouble a => rw [exec_subtractDouble] at h; exact origin_withCell h fun h => origin_finishAcc h (.inr (by simp))
  | divideDouble a => rw [exec_divideDouble] at h; exact origin_withCell h fun h => origin_divide h (by simp)
  | multiplyDouble a => rw [exec_multiplyDouble] at h; exact origin_withCell h fun h => origin_finishAcc h (.inr (by simp))
  | remainderDouble a => rw [exec_remainderDouble] at h; exact origin_withCell h fun h => origin_divide h (by simp)
  | powerDouble a => rw [exec_powerDouble] at h; exact origin_withCell h fun h => origin_finishAcc h (.inr (by simp))
  | addInt a => rw [exec_addInt] at h; exact origin_withCell h fun h => origin_finishAcc h (.inr (by simp))
  | subtractInt a => rw [exec_subtractInt] at h; exact origin_withCell h fun h => origin_finishAcc h (.inr (by simp))
  | divideInt a => rw [exec_divideInt] at h; exact origin_withCell h fun h => origin_divide h (by simp)
  | multiplyInt a => rw [exec_multiplyInt] at h; exact origin_withCell h fun h => origin_finishAcc h (.inr (by simp))
  | remainderInt a => rw [exec_remainderInt] at h; exact origin_withCell h fun h => origin_divide h (by simp)
  | powerInt a =>
    rw [exec_powerInt] at h
    refine origin_withCell h fun h => ?_
    split at h
    · cases h
    · exact origin_finishAcc h (.inr (by simp))
  | branch a => rw [exec_branch] at h; cases h; exact .same rfl rfl
  | branchNeg a => rw [exec_branchNeg] at h; split at h <;> cases h <;> exact .same rfl rfl
  | branchZero a => rw [exec_branchZero] at h; split at h <;> cases h <;> exact .same rfl rfl
  | halt a => rw [exec_halt] at h; cases h; exact .same rfl rfl

end Machine
end Sys2Proof
end

