-- ==== Sys2Proof/Laws/PackedStrings.lean ====
section
/-! SUPPORT. The Words of a packed string, one by one, what its store does when it fits, and what
`PrintString` emits as a function of the cells. -/

namespace Sys2Proof
namespace Machine

theorem packPairs_length (cs : List (Fin 256)) : (packPairs cs).length = (cs.length + 1) / 2 := by
  induction cs using packPairs.induct with
  | case1 => rfl
  | case2 c => simp [packPairs]
  | case3 c d rest ih => simp only [packPairs, List.length_cons, ih]; omega

theorem packString_length (cs : List (Fin 256)) : (packString cs).length = cs.length / 2 + 1 := by
  cases cs with
  | nil => rfl
  | cons c rest => simp only [packString, List.length_cons, packPairs_length]

theorem charCode_cons_succ (c : Fin 256) (cs : List (Fin 256)) (j : Nat) :
    charCode (c :: cs) (j + 1) = charCode cs j := rfl

theorem charCode_lt (cs : List (Fin 256)) (j : Nat) : charCode cs j < 256 := by
  unfold charCode
  cases cs[j]? <;> simp

theorem packPairs_get (cs : List (Fin 256)) (k : Nat) (h : k < (packPairs cs).length) :
    (packPairs cs)[k]? = some (.pack (charCode cs (2 * k)) (charCode cs (2 * k + 1))) := by
  induction cs using packPairs.induct generalizing k with
  | case1 => simp [packPairs] at h
  | case2 c => simp [packPairs] at h; subst h; simp [packPairs, charCode]
  | case3 c d rest ih =>
    cases k with
    | zero => simp [packPairs, charCode]
    | succ k =>
      simp only [packPairs, List.length_cons] at h ⊢
      rw [List.getElem?_cons_succ, ih k (by omega)]
      rfl

/-- The Words that `StoreString` writes are the Words of the packed string. -/
theorem packString_get (cs : List (Fin 256)) (k : Nat) (h : k ≤ cs.length / 2) :
    (packString cs)[k]? = some (stringWord cs k) := by
  cases cs with
  | nil => simp at h; subst h; rfl
  | cons c rest =>
    cases k with
    | zero => simp [packString, stringWord, Word.pack, charCode, Config.strDiv]
    | succ k =>
      simp only [packString, List.getElem?_cons_succ]
      rw [packPairs_get rest k (by rw [packPairs_length]; simp at h; omega)]
      simp only [stringWord, Word.pack, Config.strDiv]
      rw [if_neg (by omega), show 2 * (k + 1) - 1 = 2 * k + 1 by omega, show 2 * (k + 1) = (2 * k + 1) + 1 by omega,
        charCode_cons_succ, charCode_cons_succ]

/-- The two fields of a Word of a packed string. -/
theorem stringWord_fields (cs : List (Fin 256)) (k : Nat) :
    (stringWord cs k).upper = (if k = 0 then cs.length else charCode cs (2 * k - 1)) ∧
      (stringWord cs k).lower = charCode cs (2 * k) := by
  have h0 := charCode_lt cs 0
  have h1 := charCode_lt cs (2 * k)
  unfold stringWord
  split
  · next h =>
    subst h
    simp only [Word.upper, Word.lower, Word.fromInt, Int.natAbs_natCast, Config.strDiv]
    simp
    omega
  · simp only [Word.upper, Word.lower, Word.fromInt, Int.natAbs_natCast, Config.strDiv]
    omega

theorem stringWord_overflow (cs : List (Fin 256)) (k : Nat) (h : cs.length ≤ 0xFFF) :
    (stringWord cs k).overflow = false := by
  have h0 := charCode_lt cs 0
  have h1 := charCode_lt cs (2 * k)
  have h2 := charCode_lt cs (2 * k - 1)
  unfold stringWord
  split <;> rw [Word.overflow_fromInt_false, Int.natAbs_natCast] <;> omega

/-- The store of a string that fits is not cut. -/
theorem storeString_fits {s : State} {a : Nat} {cs : List (Fin 256)} (h2 : cs.length ≤ 0xFFF)
    (h3 : a + cs.length / 2 < 1000) :
    ∃ t, storeString a cs s = .ok t ∧ Written (packString cs) a (cs.length / 2 + 1) s t := by
  unfold storeString
  obtain ⟨t, h, hw⟩ | ⟨n, w, t, k, hv, h, hw, hk⟩ := storeWords_cases (packString cs) a s
  · rw [packString_length] at hw
    exact ⟨t, h, hw⟩
  · exfalso
    have hn : n < (packString cs).length := (List.getElem?_eq_some_iff.1 hv).1
    rw [packString_length] at hn
    rw [packString_get cs n (by omega)] at hv
    cases hv
    rcases hk with ⟨_, h⟩ | ⟨_, _, h⟩
    · omega
    · rw [stringWord_overflow cs n h2] at h
      cases h

/-- The cells that a store of a string has written hold the Words of the packed string. -/
theorem Written.stringWord {s t : State} {a n : Nat} {cs : List (Fin 256)} (hm : s.mem.wf = true)
    (hw : Written (packString cs) a n s t) {k : Nat} (hk : k < n) : t.cell (a + k) = stringWord cs k := by
  obtain ⟨w, h1, h2, _⟩ := hw.words hm k hk
  have hn : k < (packString cs).length := (List.getElem?_eq_some_iff.1 h1).1
  rw [packString_length] at hn
  rw [packString_get cs k (by omega)] at h1
  cases h1
  exact h2

/-- The characters of the Words in the cells from `a` on, `d` of them. -/
def charsFrom (s : State) (a d : Nat) : List Nat := (List.range' a d).flatMap fun b => cellChars (s.cell b)

/-- The state after characters have been emitted. -/
def emitted (s : State) (cs : List Nat) : State := { s with output := s.output ++ cs.map .char }

@[simp] theorem charsFrom_zero (s : State) (a : Nat) : charsFrom s a 0 = [] := rfl

@[simp] theorem emitted_nil (s : State) : emitted s [] = s := by simp [emitted]

theorem charsFrom_emit (s : State) (e : Event) (a d : Nat) : charsFrom (emit e s) a d = charsFrom s a d := rfl

theorem emitted_emit (s : State) (c : Nat) (cs : List Nat) : emitted (emit (.char c) s) cs = emitted s (c :: cs) := by
  simp [emitted, emit]

/-- The loop of `PrintString`, whole, in a memory in range with `d` cells left: the first `n` of the characters that the
cells hold, or all of them and then the fault of the read of cell 1000. -/
theorem printRest_eq (d n a : Nat) (s : State) (hr : s.mem.inRange = true) (ha : a + d = 1000) :
    printRest n a s = if n ≤ (charsFrom s a d).length then .ok (emitted s ((charsFrom s a d).take n))
      else .error (.addressOutOfBounds, emitted s (charsFrom s a d)) := by
  induction d generalizing n a s with
  | zero =>
    have he : memRead a s = .error .addressOutOfBounds := by
      rw [memRead_error_iff, ← Bool.not_eq_true, inBounds_nat]
      exact .inl ⟨by omega, rfl⟩
    match n with
    | 0 => simp [printRest]
    | 1 => simp [printRest, he]
    | n + 2 => simp [printRest, he]
  | succ d ih =>
    have hw : memRead a s = .ok (s.cell a) := memRead_cell (by omega) (Memory.overflow_get hr a)
    have hs : charsFrom s a (d + 1) = cellChars (s.cell a) ++ charsFrom s (a + 1) d := by
      simp [charsFrom, List.range'_succ]
    have hcast : (a : Int) + 1 = ((a + 1 : Nat) : Int) := by omega
    rw [hs, cellChars]
    match n with
    | 0 => simp [printRest]
    | 1 => split <;> simp [printRest, hw, emitted, emit]
    | n + 2 =>
      have h1 (m : Nat) : n + 2 ≤ m + 1 ↔ n + 1 ≤ m := by omega
      have h2 (m : Nat) : n + 2 ≤ m + 1 + 1 ↔ n ≤ m := by omega
      simp only [printRest, hw, hcast]
      split
      · rw [ih (n + 1) (a + 1) (emit (.char (s.cell a).upper) s) hr (by omega), charsFrom_emit]
        simp only [emitted_emit, List.singleton_append, List.length_cons, List.take_succ_cons, h1]
      · rw [ih n (a + 1) (emit (.char (s.cell a).lower) (emit (.char (s.cell a).upper) s)) hr (by omega), charsFrom_emit,
          charsFrom_emit]
        simp only [emitted_emit, List.cons_append, List.nil_append, List.length_cons, List.take_succ_cons, h2]

/-- `PrintString`, whole, in a memory in range, from a cell. -/
theorem printString_eq (a : Nat) (s : State) (hr : s.mem.inRange = true) (ha : a < 1000) :
    printString a s = if (s.cell a).upper ≤ (s.storedChars a).length
      then .ok (emitted s ((s.storedChars a).take (s.cell a).upper))
      else .error (.addressOutOfBounds, emitted s (s.storedChars a)) := by
  have hs : s.storedChars a = (s.cell a).lower :: charsFrom s (a + 1) (1000 - (a + 1)) := rfl
  have hcast : (a : Int) + 1 = ((a + 1 : Nat) : Int) := by omega
  rw [printString, memRead_cell ha (Memory.overflow_get hr a), hs]
  match hu : (s.cell a).upper with
  | 0 => simp [hu]
  | n + 1 =>
    simp only [hu, Nat.add_one_ne_zero, if_false, hcast]
    rw [show n.succ - 1 = n from rfl, printRest_eq (1000 - (a + 1)) n (a + 1) (emit (.char (s.cell a).lower) s) hr (by omega), charsFrom_emit]
    simp only [emitted_emit, List.length_cons, List.take_succ_cons, Nat.add_le_add_iff_right]

/-- In a memory in range every stored character is at most 0xFFF. -/
theorem storedChars_le {s : State} (hr : s.mem.inRange = true) (a : Nat) : ∀ c ∈ s.storedChars a, c ≤ 0xFFF := by
  have hf := fun b => fields_le (w := s.cell b) (Memory.overflow_get hr b)
  intro c hc
  rw [State.storedChars, List.mem_cons, List.mem_flatMap] at hc
  obtain rfl | ⟨b, _, hc⟩ := hc
  · exact (hf a).2.trans (by decide)
  · have := hf b
    rw [cellChars] at hc
    split at hc <;> simp only [List.mem_cons, List.not_mem_nil, or_false] at hc <;> omega

end Machine
end Sys2Proof
end

