-- ==== Sys2Proof/Laws/PerInstr.lean ====
section
/-! SUPPORT. The family Rebuild: an instruction is its mnemonic and its operand and nothing else, one lemma per
constructor. -/

namespace Sys2Proof
namespace Laws
namespace Rebuild

/-- Built again from its mnemonic and its operand field, the instruction is the same. -/
def Statement (i : Instr) : Prop := Instr.ofMnemonic i.mnemonic i.operand = i

theorem readInt (a : Nat) : Statement (.readInt a) := rfl
theorem writeInt (a : Nat) : Statement (.writeInt a) := rfl
theorem newline (a : Nat) : Statement (.newline a) := rfl
theorem readString (a : Nat) : Statement (.readString a) := rfl
theorem writeString (a : Nat) : Statement (.writeString a) := rfl
theorem readDouble (a : Nat) : Statement (.readDouble a) := rfl
theorem writeDouble (a : Nat) : Statement (.writeDouble a) := rfl
theorem load (a : Nat) : Statement (.load a) := rfl
theorem store (a : Nat) : Statement (.store a) := rfl
theorem addDouble (a : Nat) : Statement (.addDouble a) := rfl
theorem subtractDouble (a : Nat) : Statement (.subtractDouble a) := rfl
theorem divideDouble (a : Nat) : Statement (.divideDouble a) := rfl
theorem multiplyDouble (a : Nat) : Statement (.multiplyDouble a) := rfl
theorem remainderDouble (a : Nat) : Statement (.remainderDouble a) := rfl
theorem powerDouble (a : Nat) : Statement (.powerDouble a) := rfl
theorem addInt (a : Nat) : Statement (.addInt a) := rfl
theorem subtractInt (a : Nat) : Statement (.subtractInt a) := rfl
theorem divideInt (a : Nat) : Statement (.divideInt a) := rfl
theorem multiplyInt (a : Nat) : Statement (.multiplyInt a) := rfl
theorem remainderInt (a : Nat) : Statement (.remainderInt a) := rfl
theorem powerInt (a : Nat) : Statement (.powerInt a) := rfl
theorem branch (a : Nat) : Statement (.branch a) := rfl
theorem branchNeg (a : Nat) : Statement (.branchNeg a) := rfl
theorem branchZero (a : Nat) : Statement (.branchZero a) := rfl
theorem halt (a : Nat) : Statement (.halt a) := rfl

end Rebuild
end Laws
end Sys2Proof
end

