-- ==== Sys2Proof/Laws/Step.lean ====
section
/-! SUPPORT. What one step can do: the fetch, the checks of steps 4 and 5, and the step as a whole. -/

namespace Sys2Proof
namespace Machine

/-- What steps 1 and 2 can do. -/
theorem fetch_cases (s : State) :
    (inBounds s.ic.toInt = false ∧ fetch s = .error .programCounterOutOfBounds) ∨
      (inBounds s.ic.toInt = true ∧ (s.cell s.ic.toInt.toNat).overflow = true ∧ fetch s = .error .wordOverflow) ∨
      (inBounds s.ic.toInt = true ∧ (s.cell s.ic.toInt.toNat).overflow = false ∧
        fetch s = .ok { s with ir := s.cell s.ic.toInt.toNat }) := by
  unfold fetch
  cases h : inBounds s.ic.toInt with
  | false => simp
  | true =>
    cases h2 : (s.cell s.ic.toInt.toNat).overflow with
    | true => simp [memRead, h, h2]
    | false => simp [memRead, h, h2]

/-- What steps 4 and 5 and the look-up can do with the Word that steps 1 to 3 have fetched. -/
theorem checkAndSelect_cases (s : State) (w : Word) :
    (s.acc.overflow = true ∧ checkAndSelect (s.fetched w) = .error .wordOverflow) ∨
      (s.acc.overflow = false ∧ (∃ r, decode w = .error r) ∧
        checkAndSelect (s.fetched w) = .error .invalidOpcode) ∨
      (∃ i, s.acc.overflow = false ∧ decode w = .ok i ∧ operandOk i = false ∧
        checkAndSelect (s.fetched w) = .error .addressOutOfBounds) ∨
      ∃ i, s.acc.overflow = false ∧ decode w = .ok i ∧ operandOk i = true ∧
        checkAndSelect (s.fetched w) = .ok i := by
  unfold checkAndSelect
  simp only [State.fetched_acc, State.fetched_opc, State.fetched_opd, decodeFields_fromInt]
  cases h : s.acc.overflow with
  | true => simp
  | false =>
    cases hd : decode w with
    | error r => simp
    | ok i => cases ho : operandOk i <;> simp [ho]

theorem operandOk_iff (i : Instr) : operandOk i = true ↔ (i.needsAddress = true → i.operand < 1000) := by
  unfold operandOk
  rw [← inBounds_nat]
  cases i.needsAddress <;> simp

theorem step_of_not_running {s : State} (h : s.run ≠ .running) : step s = .next s := by
  unfold step
  split <;> simp_all

/-- A step whose fetch succeeds is the rest of the cycle on the state that steps 1 to 3 leave. -/
theorem step_of_fetch {s : State} (h : s.run = .running) (h1 : inBounds s.ic.toInt = true)
    (h2 : (s.cell s.ic.toInt.toNat).overflow = false) :
    step s = match checkAndSelect s.front with
      | .error k => .next (raise k s.front)
      | .ok i => exec i s.front := by
  have hf : fetch s = .ok { s with ir := s.cell s.ic.toInt.toNat } := by simp [fetch, memRead, h1, h2]
  have hs : step s = cycle s := by simp only [step, h]
  rw [hs, cycle, hf]
  rfl

/-- Everything a step of a running machine can do: one of the faults of steps 1 to 5, in their order, or the dispatch
of an instruction. -/
theorem step_cases {s : State} (h : s.run = .running) :
    (inBounds s.ic.toInt = false ∧ step s = .next (raise .programCounterOutOfBounds s)) ∨
      (inBounds s.ic.toInt = true ∧ (s.cell s.ic.toInt.toNat).overflow = true ∧
        step s = .next (raise .wordOverflow s)) ∨
      (inBounds s.ic.toInt = true ∧ (s.cell s.ic.toInt.toNat).overflow = false ∧
        ((s.acc.overflow = true ∧ step s = .next (raise .wordOverflow s.front)) ∨
          (s.acc.overflow = false ∧ (∃ r, decode (s.cell s.ic.toInt.toNat) = .error r) ∧
            step s = .next (raise .invalidOpcode s.front)) ∨
          (∃ i, s.acc.overflow = false ∧ decode (s.cell s.ic.toInt.toNat) = .ok i ∧ operandOk i = false ∧
            step s = .next (raise .addressOutOfBounds s.front)))) ∨
      ∃ i, s.Ready i ∧ step s = exec i s.front := by
  obtain ⟨h1, hf⟩ | ⟨h1, h2, hf⟩ | ⟨h1, h2, _⟩ := fetch_cases s
  · exact .inl ⟨h1, by simp only [step, h, cycle, hf]⟩
  · exact .inr (.inl ⟨h1, h2, by simp only [step, h, cycle, hf]⟩)
  · have hs := step_of_fetch h h1 h2
    obtain ⟨h3, hc⟩ | ⟨h3, h4, hc⟩ | ⟨i, h3, h4, h5, hc⟩ | ⟨i, h3, h4, h5, hc⟩ :=
      checkAndSelect_cases s (s.cell s.ic.toInt.toNat) <;>
      rw [← State.front_eq] at hc <;> rw [hc] at hs
    · exact .inr (.inr (.inl ⟨h1, h2, .inl ⟨h3, hs⟩⟩))
    · exact .inr (.inr (.inl ⟨h1, h2, .inr (.inl ⟨h3, h4, hs⟩)⟩))
    · exact .inr (.inr (.inl ⟨h1, h2, .inr (.inr ⟨i, h3, h4, h5, hs⟩)⟩))
    · exact .inr (.inr (.inr ⟨i, ⟨h, (inBounds_iff _).1 h1, h2, h3, h4, (operandOk_iff i).1 h5⟩, hs⟩))

/-- A cycle that reaches the dispatch is the meaning of its instruction, in the state steps 1 to 3 leave. -/
theorem step_ready {s : State} {i : Instr} (h : s.Ready i) : step s = exec i s.front := by
  have h1 := (inBounds_iff _).2 h.counter
  obtain ⟨h2, _⟩ | ⟨_, h2, _⟩ | ⟨_, _, ⟨h2, _⟩ | ⟨_, ⟨r, h2⟩, _⟩ | ⟨j, _, h2, h3, _⟩⟩ | ⟨j, h2, h3⟩ :=
    step_cases h.running
  · simp [h1] at h2
  · simp [h.fetchable] at h2
  · simp [h.accumulator] at h2
  · simp [h.decoded] at h2
  · rw [h.decoded] at h2
    cases h2
    rw [(operandOk_iff i).2 h.operand] at h3
    cases h3
  · have := h2.decoded
    rw [h.decoded] at this
    cases this
    exact h3

/-- A cycle dispatches one instruction at most. -/
theorem State.Ready.unique {s : State} {i j : Instr} (h : s.Ready i) (h' : s.Ready j) : i = j := by
  have := h.decoded
  rw [h'.decoded] at this
  cases this
  rfl

/-- The state in which step 6 runs, written out. -/
theorem State.front_record (s : State) : s.front =
    { s with
      ir := s.cell s.ic.toInt.toNat
      opc := .fromInt ((s.cell s.ic.toInt.toNat).toInt.tdiv 0x1000)
      opd := .fromInt ((s.cell s.ic.toInt.toNat).toInt.tmod 0x1000) } := rfl

/-- `OPD` is the operand of the instruction that is dispatched. -/
theorem State.Ready.opd {s : State} {i : Instr} (h : s.Ready i) : s.front.opd = .fromInt i.operand := by
  rw [(decode_ok h.decoded).2]
  rfl

end Machine
end Sys2Proof
end

