-- ==== Sys2Proof/Laws/Text.lean ====
section
/-! SUPPORT. The text form: digits and their characters, the parser on a text without its sign, the digits of a number,
and the value of fraction digits. -/

namespace Sys2Proof
namespace Word

@[simp] theorem charDigit_digitChar (d : HexDigit) : charDigit (digitChar d) = some d := by revert d; decide

theorem digitChar_ne_point (d : HexDigit) : digitChar d ≠ '.' := by revert d; decide

theorem digitChar_of_charDigit {c : Char} {d : HexDigit} (h : charDigit c = some d) : digitChar d = c := by
  unfold charDigit at h
  simpa using List.find?_some h

/-- The digits of a text are the digits whose characters it is. -/
theorem parseDigits_iff {t : Text} {ds : List HexDigit} : parseDigits t = some ds ↔ t = ds.map digitChar := by
  constructor
  · intro h
    induction t generalizing ds with
    | nil => simp [parseDigits] at h; subst h; rfl
    | cons c t ih =>
      unfold parseDigits at h
      split at h
      · next d ds' h1 h2 => cases h; rw [ih h2, List.map_cons, digitChar_of_charDigit h1]
      · cases h
  · rintro rfl
    induction ds with
    | nil => rfl
    | cons d ds ih => simp [parseDigits, ih]

theorem takeWhile_digits (ds : List HexDigit) (rest : Text) :
    (ds.map digitChar ++ '.' :: rest).takeWhile (· ≠ '.') = ds.map digitChar := by
  induction ds with
  | nil => simp
  | cons d ds ih => simp [digitChar_ne_point] at *

theorem dropWhile_digits (ds : List HexDigit) (rest : Text) :
    (ds.map digitChar ++ '.' :: rest).dropWhile (· ≠ '.') = '.' :: rest := by
  induction ds with
  | nil => simp
  | cons d ds ih => simp [digitChar_ne_point] at *

theorem takeWhile_digits_only (ds : List HexDigit) : (ds.map digitChar).takeWhile (· ≠ '.') = ds.map digitChar := by
  induction ds with
  | nil => simp
  | cons d ds ih => simp [digitChar_ne_point] at *

theorem dropWhile_digits_only (ds : List HexDigit) : (ds.map digitChar).dropWhile (· ≠ '.') = [] := by
  induction ds with
  | nil => simp
  | cons d ds ih => simp [digitChar_ne_point] at *

theorem parseBody_integer (i : List HexDigit) : parseBody (i.map digitChar) = some (i, []) := by
  unfold parseBody
  rw [takeWhile_digits_only, dropWhile_digits_only, parseDigits_iff.2 rfl]
  rfl

theorem parseBody_fraction (i f : List HexDigit) :
    parseBody (i.map digitChar ++ '.' :: f.map digitChar) = some (i, f) := by
  unfold parseBody
  rw [takeWhile_digits, dropWhile_digits, parseDigits_iff.2 rfl, List.drop_one, List.tail_cons, parseDigits_iff.2 rfl]

/-- A text without its sign that parses is the digits of its integer part, or these, a point and fraction digits. -/
theorem parseBody_cases {t : Text} {i f : List HexDigit} (h : parseBody t = some (i, f)) :
    t = i.map digitChar ∨ t = i.map digitChar ++ '.' :: f.map digitChar := by
  unfold parseBody at h
  split at h
  · next a b h1 h2 =>
    cases h
    have e1 := parseDigits_iff.1 h1
    have e2 := parseDigits_iff.1 h2
    have e := List.takeWhile_append_dropWhile (p := fun c : Char => decide (c ≠ '.')) (l := t)
    cases hd : t.dropWhile (fun c : Char => decide (c ≠ '.')) with
    | nil =>
      left
      rw [hd, List.append_nil, e1] at e
      exact e.symm
    | cons c r =>
      right
      rw [hd] at e e2
      have hc : c = '.' := by
        have := List.head?_dropWhile_not (p := fun c : Char => decide (c ≠ '.')) (l := t)
        rw [hd] at this
        simpa using this
      subst hc
      simp only [List.drop_one, List.tail_cons] at e2
      rw [e1, e2] at e
      exact e.symm
  · cases h

/-! ### Digits and numbers -/

theorem ofDigits_snoc (ds : List HexDigit) (d : HexDigit) : ofDigits (ds ++ [d]) = 16 * ofDigits ds + d.val := by
  simp [ofDigits]

theorem ofDigits_append (a b : List HexDigit) : ofDigits (a ++ b) = ofDigits a * 16 ^ b.length + ofDigits b := by
  induction b using List.reverseRecOn with
  | nil => simp [ofDigits]
  | append_singleton b d ih =>
    rw [← List.append_assoc, ofDigits_snoc, ofDigits_snoc, ih]
    simp [pow_succ]
    ring

theorem ofDigits_zeros (k : Nat) : ofDigits (List.replicate k (0 : HexDigit)) = 0 := by
  induction k with
  | zero => rfl
  | succ k ih => rw [List.replicate_succ', ofDigits_snoc, ih]; rfl

theorem hexDigitsOnto_cases (fuel n : Nat) (acc : List HexDigit) (h : n < 16 ^ fuel) (hf : fuel ≠ 0) :
    ∃ ds, hexDigitsOnto fuel n acc = ds ++ acc ∧ ofDigits ds = n := by
  induction fuel generalizing n acc with
  | zero => exact absurd rfl hf
  | succ fuel ih =>
    unfold hexDigitsOnto
    split
    · next h16 => exact ⟨[Fin.ofNat 16 n], rfl, by simp [ofDigits, Fin.ofNat]; omega⟩
    · next h16 =>
      have hf' : fuel ≠ 0 := by rintro rfl; simp at h; omega
      obtain ⟨ds, h1, h2⟩ := ih (n / 16) (Fin.ofNat 16 n :: acc) (by rw [pow_succ] at h; omega) hf'
      refine ⟨ds ++ [Fin.ofNat 16 n], by rw [h1, List.append_assoc]; rfl, ?_⟩
      rw [ofDigits_snoc, h2]
      simp [Fin.ofNat]
      omega

/-- The digits of a number have its value. -/
@[simp] theorem ofDigits_hexDigits (n : Nat) : ofDigits (hexDigits n) = n := by
  have hn : n < 16 ^ (n + 1) :=
    (Nat.lt_pow_self (by decide : 1 < 16)).trans_le (Nat.pow_le_pow_right (by decide) (by omega))
  obtain ⟨ds, h1, h2⟩ := hexDigitsOnto_cases (n + 1) n [] hn (by omega)
  rw [hexDigits, h1, List.append_nil, h2]

/-! ### Fractions -/

theorem fracVal_nonneg (ds : List HexDigit) : 0 ≤ fracVal ds := by
  induction ds with
  | nil => simp [fracVal]
  | cons d ds ih => simp only [fracVal]; positivity

theorem fracVal_lt_one (ds : List HexDigit) : fracVal ds < 1 := by
  induction ds with
  | nil => simp [fracVal]
  | cons d ds ih =>
    simp only [fracVal]
    have : (d.val : Rat) ≤ 15 := by
      have := d.isLt
      exact_mod_cast (by omega)
    rw [div_lt_one (by norm_num)]
    linarith

/-- The value of a fraction is zero exactly when every digit is. -/
theorem fracVal_eq_zero (ds : List HexDigit) : fracVal ds = 0 ↔ ds.any (fun d => decide (d ≠ 0)) = false := by
  induction ds with
  | nil => simp [fracVal]
  | cons d ds ih =>
    have := fracVal_nonneg ds
    simp only [fracVal, List.any_cons, Bool.or_eq_false_iff, ← ih]
    constructor
    · intro h
      have h2 : (d.val : Rat) + fracVal ds = 0 := by linarith
      have h3 : (0 : Rat) ≤ d.val := by positivity
      have h4 : (d.val : Rat) = 0 := by linarith
      refine ⟨?_, by linarith⟩
      have h5 : d.val = 0 := by exact_mod_cast h4
      simp [Fin.ext_iff, h5]
    · rintro ⟨h, h2⟩
      have : d = 0 := by simpa using h
      subst this
      simp [h2]

end Word
end Sys2Proof
end

