-- ==== Sys2Proof/Tests/Slice0.lean ====
section
/-! SUPPORT. The model's own tests. The expected values are those of spec/95_test_vectors.md (its number stands at each
test), of the tables of 30_encoding.md, or of a calculation by hand from the rule that is named. After the tests stand the
witnesses: for every statement with hypotheses, a state and operands that meet them. -/

open Sys2Proof Sys2Proof.Machine

namespace Sys2Proof
namespace Tests

/-! ### Helpers -/

/-- A running state with `IC` = 0, the instruction word `w` in cell 0 and other cells as given. -/
def at0 (w : Int) (acc : Word := .zero) (cells : Memory := []) (input : List Token := []) : State :=
  { State.reset with acc := acc, mem := (0, .fromInt w) :: cells, input := input }

/-- The same with the instruction word in cell 999 and `IC` = 999. -/
def at999 (w : Int) (acc : Word := .zero) (cells : Memory := []) : State :=
  { State.reset with acc := acc, ic := .fromInt 999, mem := cells ++ [(999, .fromInt w)] }

/-- A field of the state after one step. -/
def after {α : Type} (s : State) (f : State → α) : Option α :=
  match step s with
  | .next t => some (f t)
  | .fault _ => none
  | .refused _ => none

/-! ### Well-formedness: an operand that does not fit its field of three digits is refused (R61) -/

theorem test_wellFormed_refuses :
    Mnemonic.all.all (fun m => (Instr.ofMnemonic m 0xFFF).wellFormed && !(Instr.ofMnemonic m 0x1000).wellFormed) = true := by
  decide

/-! ### Decoding: the 21 bits of each row of the opcode map (R61, R62, R64), bit 20 first -/

theorem test_decode_readInt :
    decode (Word.ofCell 0b000010000000000000111#21) = .ok (.readInt 0x007) := by decide

theorem test_decode_writeInt :
    decode (Word.ofCell 0b000010001001111100111#21) = .ok (.writeInt 0x3E7) := by decide

theorem test_decode_newline :
    decode (Word.ofCell 0b000010010111111111111#21) = .ok (.newline 0xFFF) := by decide

theorem test_decode_readString :
    decode (Word.ofCell 0b000010011000000100000#21) = .ok (.readString 0x020) := by decide

theorem test_decode_writeString :
    decode (Word.ofCell 0b000010100000100100011#21) = .ok (.writeString 0x123) := by decide

theorem test_decode_readDouble :
    decode (Word.ofCell 0b000010101000000110000#21) = .ok (.readDouble 0x030) := by decide

theorem test_decode_writeDouble :
    decode (Word.ofCell 0b000010110100000000000#21) = .ok (.writeDouble 0x800) := by decide

theorem test_decode_load :
    decode (Word.ofCell 0b000100000001111100111#21) = .ok (.load 0x3E7) := by decide

theorem test_decode_store :
    decode (Word.ofCell 0b000100001000000001001#21) = .ok (.store 0x009) := by decide

theorem test_decode_addDouble :
    decode (Word.ofCell 0b000100100000000010000#21) = .ok (.addDouble 0x010) := by decide

theorem test_decode_subtractDouble :
    decode (Word.ofCell 0b000100101000000000001#21) = .ok (.subtractDouble 0x001) := by decide

theorem test_decode_divideDouble :
    decode (Word.ofCell 0b000100110000000010001#21) = .ok (.divideDouble 0x011) := by decide

theorem test_decode_multiplyDouble :
    decode (Word.ofCell 0b000100111001010101010#21) = .ok (.multiplyDouble 0x2AA) := by decide

theorem test_decode_remainderDouble :
    decode (Word.ofCell 0b000101000000101010101#21) = .ok (.remainderDouble 0x155) := by decide

theorem test_decode_powerDouble :
    decode (Word.ofCell 0b000101001000001111111#21) = .ok (.powerDouble 0x07F) := by decide

theorem test_decode_addInt :
    decode (Word.ofCell 0b000110000000000001000#21) = .ok (.addInt 0x008) := by decide

theorem test_decode_subtractInt :
    decode (Word.ofCell 0b000110001000000010001#21) = .ok (.subtractInt 0x011) := by decide

theorem test_decode_divideInt :
    decode (Word.ofCell 0b000110010000000010000#21) = .ok (.divideInt 0x010) := by decide

theorem test_decode_multiplyInt :
    decode (Word.ofCell 0b000110011000100000000#21) = .ok (.multiplyInt 0x100) := by decide

theorem test_decode_remainderInt :
    decode (Word.ofCell 0b000110100000011110000#21) = .ok (.remainderInt 0x0F0) := by decide

theorem test_decode_powerInt :
    decode (Word.ofCell 0b000110101000000001010#21) = .ok (.powerInt 0x00A) := by decide

theorem test_decode_branch :
    decode (Word.ofCell 0b001000000001111101000#21) = .ok (.branch 0x3E8) := by decide

theorem test_decode_branchNeg :
    decode (Word.ofCell 0b001000001000000001010#21) = .ok (.branchNeg 0x00A) := by decide

theorem test_decode_branchZero :
    decode (Word.ofCell 0b001000010111111111110#21) = .ok (.branchZero 0xFFE) := by decide

theorem test_decode_halt :
    decode (Word.ofCell 0b001000011000000000000#21) = .ok (.halt 0x000) := by decide

/-! ### Rejected Words -/

/-- V75, V76, V77, V79. -/
theorem test_decode_rejects_unused : decode ⟨false, 0, []⟩ = .error (.unknownOpcode 0) ∧
    decode ⟨false, 0x0A007, []⟩ = .error (.unknownOpcode 0x0A) ∧
    decode ⟨false, 0x22005, []⟩ = .error (.unknownOpcode 0x22) ∧
    decode ⟨false, 0xFF3E8, []⟩ = .error (.unknownOpcode 0xFF) := by decide

/-- V80, V81: negative Words, and a cell's sign bit is bit 20. -/
theorem test_decode_rejects_negative : decode ⟨true, 0x10007, []⟩ = .error (.unknownOpcode (-0x10)) ∧
    decode ⟨true, 7, []⟩ = .error (.unknownOpcode 0) ∧
    Word.ofCell 0b100010000000000000111#21 = ⟨true, 0x10007, []⟩ := by decide

/-- The alternative numbering of decision D1: READ_INT 007 is `+0A007`. -/
theorem test_decode_other_numbering :
    decodeWith opcodeNumberDecimal ⟨false, 0x0A007, []⟩ = .ok (.readInt 7) ∧
    decodeWith opcodeNumberDecimal ⟨false, 0x2B007, []⟩ = .ok (.halt 7) := by decide

theorem test_decodeTableWord : decodeTableWord 24 0x203E7 = some (.load 999) ∧ decodeTableWord 24 0 = none := by decide

/-! ### The codec (vectors V1 to V25) -/

/-- V1, V3 to V11. -/
theorem test_parseWord : Word.parseWord ['+', '1', '0', '0', '0', '7'] = ⟨false, 0x10007, []⟩ ∧
    Word.parseWord ['+', '1', '0', '0', '0', '0', '0'] = ⟨false, 0x100000, []⟩ ∧
    Word.parseWord ['1', '0', '0', '0', '7'] = .zero ∧ Word.parseWord ['+', '1', 'G'] = .zero ∧
    Word.parseWord ['+', '1', 'a'] = .zero ∧ Word.parseWord ['+', '1', '.', '2', '.', '3'] = .zero ∧
    Word.parseWord [] = .zero ∧ Word.parseWord ['+'] = ⟨false, 0, []⟩ ∧
    Word.parseWord ['-', '0', '0', '0', '0', '0'] = ⟨true, 0, []⟩ ∧
    Word.parseWord ['+', '2', '.', '8'] = ⟨false, 2, [8]⟩ := by decide

/-- V13 to V18, and R85's own example with a minus sign. -/
theorem test_getString : (Word.fromInt 0).getString 6 = ['+', '0', '0', '0', '0', '0'] ∧
    (Word.fromInt (-1)).getString 6 = ['-', '0', '0', '0', '0', '1'] ∧
    (Word.fromInt 1048576).getString 6 = ['+', '1', '0', '0', '0', '0', '0'] ∧
    (Word.fromInt 7).getString 2 = ['+', '7'] ∧ (Word.fromInt 7).getString 1 = ['+', '7'] ∧
    (Word.fromInt (-0x10007)).getString 6 = ['-', '1', '0', '0', '0', '7'] ∧
    (Word.mk false 2 [8]).getString 6 = ['+', '0', '0', '2', '.', '8'] := by decide

/-- V20 to V22. -/
theorem test_string_fields : (Word.fromInt 0x241).upper = 2 ∧ (Word.fromInt 0x241).lower = 0x41 ∧
    (Word.fromInt 0xFFFFF).upper = 0xFFF ∧ (Word.fromInt 0xFFFFF).lower = 0xFF ∧
    (Word.fromInt (-0x4243)).upper = 0x42 ∧ (Word.fromInt (-0x4243)).lower = 0x43 := by decide

/-- V23 to V25. -/
theorem test_overflow : (Word.mk false 0xFFFFF []).overflow = false ∧ (Word.mk true 0xFFFFF []).overflow = false ∧
    (Word.mk false 0x100000 []).overflow = true ∧ (Word.mk true 0x100000 []).overflow = true ∧
    (Word.mk false 0xFFFFF [8]).overflow = true ∧ (Word.mk false 0xFFFFF [0]).overflow = false := by decide

/-- V11, V12. -/
theorem test_val : (Word.mk false 2 [8]).val = 5 / 2 ∧ (Word.mk true 0 [8]).val = -1 / 2 ∧
    (Word.mk true 0 [8]).toInt = 0 := by decide +kernel

/-- R31: a computed zero has the sign `+`; a Word that is not zero keeps its sign. -/
theorem test_plusZero : (Word.mk true 0 [0]).plusZero = ⟨false, 0, [0]⟩ ∧ (Word.mk true 0 [8]).plusZero = ⟨true, 0, [8]⟩ ∧
    (Word.mk true 7 []).plusZero = ⟨true, 7, []⟩ := by decide

/-- R86: `-0` and `+0` are equal, so are `+2.8` and `+2.80`; `-0.8` is less than `+0` and `+2.8` greater than `+2`. -/
theorem test_compare : (Word.mk true 0 []).equals .zero = true ∧ (Word.mk false 2 [8]).equals ⟨false, 2, [8, 0]⟩ = true ∧
    (Word.mk true 0 [8]).compareTo .zero = .lt ∧ (Word.mk false 2 [8]).compareTo (.fromInt 2) = .gt := by decide +kernel

/-! ### The integer ALU (vectors V30 to V64) -/

theorem test_intOp_divide_mod : intOp .divide 10 3 = 3 ∧ intOp .divide (-7) 2 = -3 ∧ intOp .divide 7 (-2) = -3 ∧
    intOp .divide (-7) (-2) = 3 ∧ intOp .mod (-7) 2 = -1 ∧ intOp .mod 7 (-2) = 1 ∧ intOp .mod (-7) (-2) = -1 ∧
    intArith .divide (.fromInt (-1)) (.fromInt 2) = .zero := by decide

theorem test_intOp_power : intOp .exponent 2 19 = 0x80000 ∧ intOp .exponent (-2) 3 = -8 ∧ intOp .exponent 5 0 = 1 ∧
    intOp .exponent 0 0 = 1 ∧ intOp .exponent 0 5 = 0 ∧ intOp .exponent 2 (-1) = 0 ∧ intOp .exponent 1 (-5) = 1 ∧
    intOp .exponent (-1) (-3) = -1 := by decide +kernel

/-! ### One step of each instruction (vectors V100 to V157) -/

/-- V101. -/
theorem test_readInt_stores : after (at0 0x10007 .zero [] [.int (-1048575)]) (fun t => (t.cell 7, t.ic, t.input)) =
    some (⟨true, 0xFFFFF, []⟩, .fromInt 1, []) := by decide

/-- V102. -/
theorem test_readInt_too_big : after (at0 0x10007 .zero [] [.int 1048576]) (fun t => (t.cell 7, t.ic, t.input, t.run)) =
    some (.zero, .zero, [], .faulted .wordOverflow) := by decide

/-- V104. -/
theorem test_writeInt : after (at0 0x11007 .zero [(7, .fromInt (-0x2A))]) (fun t => (t.output, t.ic)) =
    some ([.int (-42)], .fromInt 1) := by decide

/-- V105. -/
theorem test_writeInt_fraction : after (at0 0x11007 .zero [(7, ⟨false, 2, [8]⟩)]) (·.output) = some [.int 2] := by decide

/-- V83. -/
theorem test_newline : after (at0 0x12FFF) (fun t => (t.output, t.ic)) = some ([.newline], .fromInt 1) := by decide

/-- V111. -/
theorem test_readString : after (at0 0x13020 .zero [] [.string [0x41, 0x42, 0x43, 0x44]])
    (fun t => (t.cell 0x20, t.cell 0x21, t.cell 0x22, t.ic)) =
    some (.fromInt 0x441, .fromInt 0x4243, .fromInt 0x4400, .fromInt 1) := by decide

/-- V112. -/
theorem test_readString_cut : after (at0 0x133E6 .zero [] [.string [0x41, 0x42, 0x43, 0x44, 0x45]])
    (fun t => (t.cell 998, t.cell 999, t.run, t.ic)) =
    some (.fromInt 0x541, .fromInt 0x4243, .faulted .addressOutOfBounds, .zero) := by decide

/-- V117. -/
theorem test_writeString : after (at0 0x14020 .zero [(0x20, .fromInt 0x241), (0x21, .fromInt 0x4243)])
    (fun t => (t.output, t.ic)) = some ([.char 0x41, .char 0x42], .fromInt 1) := by decide

/-- V118. -/
theorem test_writeString_cut : after (at0 0x143E7 .zero [(999, .fromInt 0x341)]) (fun t => (t.output, t.run, t.ic)) =
    some ([.char 0x41], .faulted .addressOutOfBounds, .zero) := by decide

/-- R135: the value stored is free, the token is consumed either way. -/
theorem test_readDouble_consumes :
    ∃ t, exec (.readDouble 0x30) (at0 0x15030 .zero [] [.double (.finite (5 / 2)), .int 1]) = .next t ∧
      t.input = [.int 1] := by
  obtain ⟨_, _, h⟩ | ⟨_, h⟩ | ⟨_, _, h⟩ :=
    withStore_cases 0x30 (encodeDouble (.finite (5 / 2))) (at0 0x15030 .zero [] [.int 1]) fun t => .next (advance t)
  · exact ⟨_, h, rfl⟩
  · exact ⟨_, h, rfl⟩
  · exact ⟨_, h, rfl⟩

/-- R136's own example. -/
theorem test_writeDouble : after (at0 0x16030 .zero [(0x30, ⟨false, 2, [8]⟩)]) (fun t => (t.output, t.ic)) =
    some ([.double ⟨false, 2, [8]⟩], .fromInt 1) := by decide

/-- V120. -/
theorem test_load : after (at0 0x20010 (.fromInt 5) [(0x10, .fromInt (-7))]) (fun t => (t.acc, t.ic)) =
    some (.fromInt (-7), .fromInt 1) := by decide

/-- V74. -/
theorem test_load_no_cell : after (at0 0x20FFF (.fromInt 5)) (fun t => (t.acc, t.run, t.opd)) =
    some (.fromInt 5, .faulted .addressOutOfBounds, .fromInt 0xFFF) := by decide

/-- V123. -/
theorem test_store : after (at0 0x21010 (.fromInt (-0xFFFFF))) (fun t => (t.cell 0x10, t.acc, t.ic)) =
    some (.fromInt (-0xFFFFF), .zero, .fromInt 1) := by decide

/-- V125. -/
theorem test_store_overflowed : after (at0 0x21010 (.fromInt 0x100000)) (fun t => (t.cell 0x10, t.acc, t.run, t.ic)) =
    some (.zero, .fromInt 0x100000, .faulted .wordOverflow, .zero) := by decide

/-- V146, and the order of the operands of R155. -/
theorem test_addDouble : after (at0 0x24010 ⟨false, 1, [8]⟩ [(0x10, ⟨false, 2, [8]⟩)]) (·.acc) =
    some (Config.floatResult .add ⟨false, 1, [8]⟩ ⟨false, 2, [8]⟩).plusZero := by rfl

theorem test_subtractDouble : after (at0 0x25010 ⟨false, 1, [8]⟩ [(0x10, ⟨false, 2, [8]⟩)]) (·.acc) =
    some (Config.floatResult .subtract ⟨false, 1, [8]⟩ ⟨false, 2, [8]⟩).plusZero := by rfl

/-- V143. -/
theorem test_divideDouble_zero : after (at0 0x26010 (.fromInt 5)) (·.run) = some (.faulted .divisionByZero) := by decide

/-- V144. -/
theorem test_divideDouble_fraction : after (at0 0x26010 (.fromInt 5) [(0x10, ⟨false, 0, [1]⟩)]) (·.acc) =
    some (Config.floatResult .divide (.fromInt 5) ⟨false, 0, [1]⟩).plusZero := by rfl

theorem test_multiplyDouble : after (at0 0x27010 ⟨false, 1, [8]⟩ [(0x10, .fromInt 2)]) (·.acc) =
    some (Config.floatResult .multiply ⟨false, 1, [8]⟩ (.fromInt 2)).plusZero := by rfl

/-- V145. -/
theorem test_remainderDouble_zero : after (at0 0x28010 (.fromInt 5) [(0x10, ⟨true, 0, []⟩)]) (·.run) =
    some (.faulted .divisionByZero) := by decide

/-- R161: a zero base with a negative exponent is no fault. -/
theorem test_powerDouble : after (at0 0x29010 .zero [(0x10, .fromInt (-1))]) (fun t => (t.acc, t.run)) =
    some ((Config.floatResult .power .zero (.fromInt (-1))).plusZero, .running) := by rfl

/-- V127. -/
theorem test_addInt_overflow : after (at0 0x30010 (.fromInt 0xFFFFF) [(0x10, .fromInt 1)]) (fun t => (t.acc, t.run, t.ic)) =
    some (.fromInt 0x100000, .running, .fromInt 1) := by decide

/-- V142. -/
theorem test_addInt_itself : after (at0 0x30000 (.fromInt 1)) (·.acc) = some (.fromInt 0x30001) := by decide

/-- V128. -/
theorem test_subtractInt : after (at0 0x31010 (.fromInt 3) [(0x10, .fromInt 5)]) (·.acc) = some (.fromInt (-2)) := by decide

/-- V130. -/
theorem test_divideInt : after (at0 0x32010 (.fromInt (-7)) [(0x10, .fromInt 2)]) (·.acc) = some (.fromInt (-3)) := by decide

/-- V133. -/
theorem test_divideInt_fraction : after (at0 0x32010 (.fromInt 5) [(0x10, ⟨false, 0, [8]⟩)]) (fun t => (t.run, t.acc)) =
    some (.faulted .divisionByZero, .fromInt 5) := by decide

/-- V134. -/
theorem test_multiplyInt : after (at0 0x33010 (.fromInt 6) [(0x10, .fromInt (-7))]) (·.acc) =
    some (.fromInt (-0x2A)) := by decide

/-- V137. -/
theorem test_remainderInt : after (at0 0x34010 (.fromInt (-7)) [(0x10, .fromInt 2)]) (·.acc) =
    some (.fromInt (-1)) := by decide

/-- V139. -/
theorem test_powerInt : after (at0 0x35010 (.fromInt 2) [(0x10, .fromInt 0xA)]) (·.acc) = some (.fromInt 0x400) := by
  decide

/-- V65: `0` to the power -1 has no value and is refused. -/
theorem test_powerInt_no_value : exec (.powerInt 0x10) (at0 0x35010 .zero [(0x10, .fromInt (-1))]) =
    .refused .zeroToNegativePower := by rfl

/-- V84. -/
theorem test_branch : after (at0 0x403E8) (fun t => (t.ic, t.run)) = some (.fromInt 1000, .running) := by decide

/-- V148. -/
theorem test_branchNeg : after (at0 0x41123 (.fromInt (-1))) (·.ic) = some (.fromInt 0x123) := by decide

/-- V150. -/
theorem test_branchNeg_negative_zero : after (at0 0x41123 ⟨true, 0, []⟩) (·.ic) = some (.fromInt 1) := by decide

/-- V153. -/
theorem test_branchZero : after (at0 0x42123 ⟨true, 0, []⟩) (·.ic) = some (.fromInt 0x123) := by decide

/-- V155. -/
theorem test_branchZero_fraction : after (at0 0x42123 ⟨false, 0, [8]⟩) (·.ic) = some (.fromInt 1) := by decide

/-- V156. -/
theorem test_halt : after (at0 0x43000) (fun t => (t.run, t.ic, t.opc)) = some (.halted, .zero, .fromInt 0x43) := by decide

/-- V157. -/
theorem test_halt_overflowed : after (at0 0x43000 (.fromInt 0x100000)) (·.run) = some (.faulted .wordOverflow) := by decide

/-! ### The order of the checks (vectors V160 to V165) -/

/-- V160. -/
theorem test_counter_before_accumulator :
    after { at0 0x43000 (.fromInt 0x100000) with ic := .fromInt 1000 } (fun t => (t.run, t.ir)) =
      some (.faulted .programCounterOutOfBounds, .zero) := by decide

/-- V161, V162. -/
theorem test_accumulator_before_dispatch_and_operand :
    after (at0 0x01000 (.fromInt 0x100000)) (·.run) = some (.faulted .wordOverflow) ∧
    after (at0 0x20FFF (.fromInt 0x100000)) (·.run) = some (.faulted .wordOverflow) := by decide

/-- V79, V163. -/
theorem test_operand_and_opcode :
    after (at0 0xFF3E8) (·.run) = some (.faulted .invalidOpcode) ∧
    after (at0 0x32FFF (.fromInt 1)) (·.run) = some (.faulted .addressOutOfBounds) := by decide

/-- V165. -/
theorem test_store_bounds_first : memWrite 1000 (.fromInt 0x100000) .reset = .error .addressOutOfBounds := by decide

/-! ### The host's side -/

/-- R221: the numbers of the status port. -/
theorem test_codes : statusCode (.faulted .invalidOpcode) = 2 ∧ faultCode .programCounterOutOfBounds = 5 ∧
    exitStatus .halted = some 0 ∧ exitStatus (.faulted .divisionByZero) = some 3 ∧ exitStatus .running = none := by decide

/-- R51: a store of the loader that fails stops the load; E9, E10. -/
theorem test_load_fails : loadCells [(0, .fromInt 0x43000), (1000, .zero)] .reset = .error .addressOutOfBounds ∧
    loadCells [(0, .fromInt 0x100000)] .reset = .error .wordOverflow := by decide

theorem test_withFetchWord :
    after (State.reset.withFetchWord 24 0x20000) (·.acc) = some (.fromInt 0x20000) := by decide

/-- The canonical form of log entry 3: storing `ZERO` unlists the cell, and an entry goes before a higher one. -/
theorem test_memory_canonical : Memory.set [(3, .fromInt 5)] 3 .zero = [] ∧
    (Memory.set [(3, .fromInt 5)] 1 (.fromInt 2)).wf = true := by decide

/-! ### Witnesses

One theorem for each statement that has hypotheses, named after it: for each of its clauses, a state and operands that meet
the hypotheses of the clause together, at the ends of the ranges where it has ranges. -/

/-- A step answers a next state with the property when its evaluation says so. -/
theorem steps_to {s : State} {p : State → Prop} [DecidablePred p] (h : after s (fun t => decide (p t)) = some true) :
    ∃ t, step s = .next t ∧ p t := by
  unfold after at h
  cases hs : step s with
  | next t => rw [hs] at h; exact ⟨t, rfl, of_decide_eq_true (Option.some.inj h)⟩
  | fault k => rw [hs] at h; cases h
  | refused r => rw [hs] at h; cases h

theorem steps {s : State} (h : after s (fun _ => true) = some true) : ∃ t, step s = .next t :=
  (steps_to (p := fun _ => True) (by simpa using h)).imp fun _ h => h.1

/-- The facts of `State.Ready`, as one proposition that can be evaluated. -/
abbrev readyFacts (i : Instr) (s : State) : Prop :=
  s.run = .running ∧ (0 ≤ s.ic.toInt ∧ s.ic.toInt < 1000) ∧ (s.cell s.ic.toInt.toNat).overflow = false ∧
    s.acc.overflow = false ∧ decode (s.cell s.ic.toInt.toNat) = .ok i ∧ (i.needsAddress = true → i.operand < 1000)

theorem ready_of_facts {i : Instr} {s : State} (h : readyFacts i s) : s.Ready i :=
  ⟨h.1, h.2.1, h.2.2.1, h.2.2.2.1, h.2.2.2.2.1, h.2.2.2.2.2⟩

theorem witness_DecodeOfEncodeGivesTheInstruction :
    (Instr.readInt 0).wellFormed = true ∧ (Instr.halt 0xFFF).wellFormed = true ∧ Function.Injective opcodeNumberDecimal := by
  refine ⟨by decide, by decide, ?_⟩
  intro a b
  cases a <;> cases b <;> simp [opcodeNumberDecimal]

theorem witness_EncodeOfDecodeGivesTheWord : decode ⟨false, 0x10007, [8]⟩ = .ok (.readInt 7) := by decide

theorem witness_DecodingTheEncodingOfAnInteger : (1048575 : Int).natAbs ≤ 0xFFFFF ∧ (-1048575 : Int).natAbs ≤ 0xFFFFF := by
  decide

theorem witness_FixedWidthTextKeepsTheWord : 2 ≤ ((Word.fromInt 7).getString 0).length := by decide

theorem witness_LenientParserReadsLiteralsAndZeroesTheRest :
    (('+' : Char) = '+' ∨ ('+' : Char) = '-') ∧ (('-' : Char) = '+' ∨ ('-' : Char) = '-') ∧
    ∀ (c : Char) (i f : List HexDigit), c = '+' ∨ c = '-' →
      ['1'] ≠ c :: i.map Word.digitChar ∧ ['1'] ≠ c :: (i.map Word.digitChar ++ '.' :: f.map Word.digitChar) := by
  refine ⟨by decide, by decide, ?_⟩
  rintro c i f (rfl | rfl) <;> constructor <;> intro h <;> cases h

theorem witness_ZeroAndSignTestsAreOnTheExactValue : (Word.fromInt (-3)).fr = [] := rfl

theorem witness_SumDifferenceAndProductAreExact :
    (Word.mk true 0xFFFFF []).overflow = false ∧ (Word.mk false 0xFFFFF [0]).overflow = false ∧
    (Word.mk true 0xFFFFF []).toInt ≠ 0 ∧ (Word.mk true 0 [8]).toInt = 0 := by decide

theorem witness_QuotientTruncatesAndRemainderFollowsDividend : (Word.fromInt (-2)).toInt ≠ 0 := by decide

theorem witness_IntegerPowerAtEveryStatedCorner :
    0 ≤ (Word.fromInt 0).toInt ∧ ((Word.fromInt (-1)).toInt < 0 ∧ (Word.fromInt 7).toInt ≠ 0) ∧
    ((Word.fromInt (-1)).toInt < 0 ∧ (Word.fromInt 1).toInt = 1) ∧
    ((Word.fromInt (-1)).toInt < 0 ∧ (Word.fromInt (-1)).toInt = -1) ∧
    ((Word.fromInt (-1)).toInt < 0 ∧ 2 ≤ (Word.fromInt (-2)).toInt.natAbs) := by decide

/-- A state that meets the invariant and runs an ADD_INT that overflows. -/
theorem inv_overflowing_add : (at0 0x30010 (.fromInt 0xFFFFF) [(0x10, .fromInt 1)]).Inv where
  memoryCanonical := by decide
  memoryInRange := by decide
  counterValue := by decide
  instructionInRange := by decide
  derivedRegisters := by decide
  counterFault := by decide
  otherEnds := by decide
  haltedShowsHalt := by decide
  characterCodes := by intro c h; cases h

theorem witness_CheckedReadOfOneCell :
    ((-1 : Int) < 0 ∨ 1000 ≤ (-1 : Int)) ∧ ((1000 : Int) < 0 ∨ 1000 ≤ (1000 : Int)) ∧
    ((0 : Int) ≤ 999 ∧ (999 : Int) < 1000 ∧ ((at999 0x100000).cell (999 : Int).toNat).overflow = true) ∧
    ((0 : Int) ≤ 999 ∧ (999 : Int) < 1000 ∧ ((at999 0x43000).cell (999 : Int).toNat).overflow = false) ∧
    (at0 0x30010 (.fromInt 0xFFFFF) [(0x10, .fromInt 1)]).Inv :=
  ⟨by decide, by decide, by decide, by decide, inv_overflowing_add⟩

theorem witness_CheckedWriteOfOneCell : (at0 0x43000).mem.wf = true ∧
    ((-1 : Int) < 0 ∨ 1000 ≤ (-1 : Int)) ∧ ((1000 : Int) < 0 ∨ 1000 ≤ (1000 : Int)) ∧
    ((0 : Int) ≤ 999 ∧ (999 : Int) < 1000 ∧ (Word.fromInt 0x100000).overflow = true) ∧
    ((0 : Int) ≤ 999 ∧ (999 : Int) < 1000 ∧ (Word.fromInt (-0xFFFFF)).overflow = false) := by decide

theorem witness_MemoriesWithEqualCellsAreEqual :
    Memory.wf [(0, .fromInt 1), (999, .fromInt 2)] = true ∧
    ∀ a, a < 1000 → Memory.get [(0, .fromInt 1), (999, .fromInt 2)] a =
      Memory.get (Memory.set [(0, .fromInt 1)] 999 (.fromInt 2)) a :=
  ⟨by decide, fun _ _ => rfl⟩

theorem witness_CellReadersRaiseTheFaultOfTheRead : (1000 ≤ 1000 ∧ 999 < 1000) ∧
    ((at999 0x100000).cell 999).overflow = true := by decide

theorem witness_StepRunsTheDecodedInstruction :
    ((at0 0x203E7).run = .running ∧ 0 ≤ (at0 0x203E7).ic.toInt ∧ (at0 0x203E7).ic.toInt < 1000) ∧
    ((at0 0x203E7).cell 0).overflow = false ∧ (at0 0x203E7).acc.overflow = false ∧
    decode ((at0 0x203E7).cell 0) = .ok (.load 999) ∧ (Instr.load 999).operand < 1000 := by decide

theorem witness_StepOneChecksTheInstructionCounter :
    ({ at0 0x43000 with ic := .fromInt 1000 } : State).run = .running ∧
    1000 ≤ ({ at0 0x43000 with ic := .fromInt 1000 } : State).ic.toInt ∧
    ({ at0 0x43000 with ic := .fromInt (-1) } : State).ic.toInt < 0 := by decide

theorem witness_StepTwoFetchesTheCellTheCounterNames :
    ((at999 0x43000).run = .running ∧ 0 ≤ (at999 0x43000).ic.toInt ∧ (at999 0x43000).ic.toInt < 1000) ∧
    ((at999 0x43000).cell (at999 0x43000).ic.toInt.toNat).overflow = false ∧
    ((at999 0x100000).cell (at999 0x100000).ic.toInt.toNat).overflow = true ∧
    (∃ t, step (at999 0x43000) = .next t) ∧ (at0 0x30010 (.fromInt 0xFFFFF) [(0x10, .fromInt 1)]).Inv :=
  ⟨by decide, by decide, by decide, steps (by decide), inv_overflowing_add⟩

theorem witness_StepThreeWritesTheDerivedRegisters :
    ((at0 (-0x10007)).run = .running ∧ 0 ≤ (at0 (-0x10007)).ic.toInt ∧ (at0 (-0x10007)).ic.toInt < 1000) ∧
    ((at0 (-0x10007)).cell (at0 (-0x10007)).ic.toInt.toNat).overflow = false ∧ ∃ t, step (at0 (-0x10007)) = .next t :=
  ⟨by decide, by decide, steps (by decide)⟩

theorem witness_StepFourChecksTheAccumulator :
    let s := at999 0x01000 ⟨false, 0xFFFFF, [0, 1]⟩
    s.run = .running ∧ 0 ≤ s.ic.toInt ∧ s.ic.toInt < 1000 ∧ (s.cell s.ic.toInt.toNat).overflow = false ∧
      s.acc.overflow = true := by decide

/-- The hypotheses of step 5 on one state, for the opcode value `c` and the operand `t`. -/
abbrev operandChecked (s : State) (c t : Nat) : Prop :=
  s.run = .running ∧ 0 ≤ s.ic.toInt ∧ s.ic.toInt < 1000 ∧ (s.cell s.ic.toInt.toNat).overflow = false ∧
    s.acc.overflow = false ∧ (s.cell s.ic.toInt.toNat).toInt = ((c * 0x1000 + t : Nat) : Int) ∧ 1000 ≤ t ∧ t < 0x1000

theorem witness_StepFiveChecksTheOperand : operandChecked (at0 0x203E8) 0x20 1000 ∧ operandChecked (at0 0x35FFF) 0x35 0xFFF ∧
    operandChecked (at0 0x403E8) 0x40 1000 ∧ operandChecked (at0 0x12FFF) 0x12 0xFFF := by decide

theorem witness_UnrecognisedOpcodeIsInvalidOpcode :
    ((at0 0x44000).run = .running ∧ 0 ≤ (at0 0x44000).ic.toInt ∧ (at0 0x44000).ic.toInt < 1000 ∧
      ((at0 0x44000).cell 0).overflow = false ∧ (at0 0x44000).acc.overflow = false ∧
      ((at0 0x44000).cell 0).ip / 0x1000 ∉ [0x10, 0x11, 0x12, 0x13, 0x14, 0x15, 0x16, 0x20, 0x21, 0x24, 0x25, 0x26, 0x27,
        0x28, 0x29, 0x30, 0x31, 0x32, 0x33, 0x34, 0x35, 0x40, 0x41, 0x42, 0x43]) ∧
    (((at0 (-0x10007)).cell 0).overflow = false ∧ ((at0 (-0x10007)).cell 0).toInt < 0) := by decide

theorem witness_TerminalStatesStay : ({ at0 0x43000 with run := .halted } : State).run ≠ .running ∧
    ({ at0 0x43000 with run := .faulted .wordOverflow } : State).run ≠ .running := by decide

theorem witness_InstructionCounterAfterACycle :
    ((at0 0x403E8).Ready (.branch 1000) ∧ ∃ t, step (at0 0x403E8) = .next t ∧ t.run = .running) ∧
    ((at0 0x41123 (.fromInt (-1))).Ready (.branchNeg 0x123) ∧
      ∃ t, step (at0 0x41123 (.fromInt (-1))) = .next t ∧ t.run = .running) ∧
    ((at0 0x43000).Ready (.halt 0) ∧ ∃ t, step (at0 0x43000) = .next t ∧ t.run ≠ .running) ∧
    ((at0 0x10007).Ready (.readInt 7) ∧ readClass (.readInt 7) = true ∧ (at0 0x10007).input = [] ∧
      ∃ t, step (at0 0x10007) = .next t) :=
  ⟨⟨ready_of_facts (by decide), steps_to (by decide)⟩, ⟨ready_of_facts (by decide), steps_to (by decide)⟩,
    ⟨ready_of_facts (by decide), steps_to (by decide)⟩, ⟨ready_of_facts (by decide), rfl, rfl, steps (by decide)⟩⟩

/-- Each clause: the counter fault; memory changed by a READSTRING that is cut; output appended by a WRITESTRING that is
cut; a token taken by a READ_INT whose integer is too big. -/
theorem witness_FaultsArePrecise :
    (({ at0 0x43000 with ic := .fromInt 1000 } : State).run = .running ∧
      ∃ t, step { at0 0x43000 with ic := .fromInt 1000 } = .next t ∧ t.run = .faulted .programCounterOutOfBounds) ∧
    (∃ t, step (at0 0x133E7 .zero [] [.string [0x41, 0x42]]) = .next t ∧ t.run = .faulted .addressOutOfBounds ∧
      t.mem ≠ (at0 0x133E7 .zero [] [.string [0x41, 0x42]]).mem) ∧
    (∃ t, step (at0 0x143E7 .zero [(999, .fromInt 0x341)]) = .next t ∧ t.run = .faulted .addressOutOfBounds ∧
      t.output ≠ (at0 0x143E7 .zero [(999, .fromInt 0x341)]).output) ∧
    ∃ t, step (at0 0x10007 .zero [] [.int 1048576]) = .next t ∧ t.run = .faulted .wordOverflow ∧
      t.input ≠ (at0 0x10007 .zero [] [.int 1048576]).input :=
  ⟨⟨rfl, steps_to (by decide)⟩, steps_to (by decide), steps_to (by decide), steps_to (by decide)⟩

theorem witness_HaltedIsReachedByHaltAlone : (at0 0x43FFF).run = .running ∧ (at0 0x43FFF).Ready (.halt 0xFFF) ∧
    ∃ t, step (at0 0x43FFF) = .next t ∧ t.run = .halted := ⟨rfl, ready_of_facts (by decide), steps_to (by decide)⟩

theorem witness_OnlyFourInstructionsWriteMemory :
    ∃ t, step (at0 0x21010 (.fromInt 5)) = .next t ∧ t.mem ≠ (at0 0x21010 (.fromInt 5)).mem := steps_to (by decide)

theorem witness_OnlyLoadStoreAndArithmeticWriteTheAccumulator :
    ∃ t, step (at0 0x20000) = .next t ∧ t.acc ≠ (at0 0x20000).acc := steps_to (by decide)

theorem witness_PortsMoveOnlyByTheirInstructions : (∃ t, step (at0 0x12000) = .next t) ∧
    ∃ t, step (at0 0x10007 .zero [] [.int 5]) = .next t := ⟨steps (by decide), steps (by decide)⟩

/-- Each refusal, and a POWER_INT that is neither. -/
theorem witness_StepAnswersOutsideTheTwoRefusals :
    (∃ i, (at0 0x10007 .zero [] [.string []]).Ready i ∧ readClass i = true ∧
      tokenFits i (at0 0x10007 .zero [] [.string []]).input = false) ∧
    (∃ a, (at0 0x35010 .zero [(0x10, .fromInt (-1))]).Ready (.powerInt a) ∧
      ((at0 0x35010 .zero [(0x10, .fromInt (-1))]).cell a).overflow = false ∧
      (at0 0x35010 .zero [(0x10, .fromInt (-1))]).zeroToNegative a) ∧
    (¬ ∃ i, (at0 0x35010).Ready i ∧ readClass i = true ∧ tokenFits i (at0 0x35010).input = false) ∧
    ¬ ∃ a, (at0 0x35010).Ready (.powerInt a) ∧ ((at0 0x35010).cell a).overflow = false ∧ (at0 0x35010).zeroToNegative a := by
  have hr : (at0 0x35010).Ready (.powerInt 0x10) := ready_of_facts (by decide)
  refine ⟨⟨.readInt 7, ready_of_facts (by decide), rfl, rfl⟩, ⟨0x10, ready_of_facts (by decide), by decide, rfl, by decide⟩,
    ?_, ?_⟩
  · rintro ⟨i, h, h1, _⟩
    cases h.unique hr
    cases h1
  · rintro ⟨a, h, _, _, h2⟩
    cases h.unique hr
    exact absurd h2 (by decide)

theorem witness_BlockedReadWaitsForItsToken :
    ((at0 0x10007).Ready (.readInt 7) ∧ readClass (.readInt 7) = true ∧ (at0 0x10007).input = []) ∧
    ((at0 0x133E7).Ready (.readString 999) ∧ readClass (.readString 999) = true) ∧
    ((at0 0x15000).Ready (.readDouble 0) ∧ readClass (.readDouble 0) = true) :=
  ⟨⟨ready_of_facts (by decide), rfl, rfl⟩,
    ⟨ready_of_facts (by decide), rfl⟩,
    ⟨ready_of_facts (by decide), rfl⟩⟩

/-- A load into cells 0 and 999 of a state that meets the invariant; the launch with it; and what its success asks for. -/
theorem witness_ResetAndLoadMeetTheInvariant :
    ((at0 0x30010 (.fromInt 0xFFFFF) [(0x10, .fromInt 1)]).Inv ∧
      ∃ t, loadCells [(0, .fromInt 5), (999, ⟨true, 0xFFFFF, []⟩)]
        (at0 0x30010 (.fromInt 0xFFFFF) [(0x10, .fromInt 1)]) = .ok t) ∧
    (∃ s, launch [(0, .fromInt 5), (999, ⟨true, 0xFFFFF, []⟩)] [.int 1] = .ok s) ∧
    ∀ c ∈ [((0 : Int), Word.fromInt 5), (999, ⟨true, 0xFFFFF, []⟩)], 0 ≤ c.1 ∧ c.1 < 1000 ∧ c.2.overflow = false :=
  ⟨⟨inv_overflowing_add, _, rfl⟩, ⟨_, rfl⟩, by decide⟩

theorem witness_EveryStepKeepsTheInvariant : (at0 0x30010 (.fromInt 0xFFFFF) [(0x10, .fromInt 1)]).Inv ∧
    ∃ t, step (at0 0x30010 (.fromInt 0xFFFFF) [(0x10, .fromInt 1)]) = .next t := ⟨inv_overflowing_add, steps (by decide)⟩

theorem witness_OverflowIsReportedOneInstructionLate :
    (at0 0x30010 (.fromInt 0xFFFFF) [(0x10, .fromInt 1)]).Inv ∧
    (at0 0x30010 (.fromInt 0xFFFFF) [(0x10, .fromInt 1)]).run = .running ∧
    ∃ t, step (at0 0x30010 (.fromInt 0xFFFFF) [(0x10, .fromInt 1)]) = .next t ∧ t.run = .running ∧
      t.acc.overflow = true := ⟨inv_overflowing_add, rfl, steps_to (by decide)⟩

theorem witness_StoredWordIsTheNextInstruction : (at0 0x21001 (.fromInt 0x43000)).mem.wf = true ∧
    (at0 0x21001 (.fromInt 0x43000)).ic.toInt + 1 < 1000 ∧
    (at0 0x21001 (.fromInt 0x43000)).Ready (.store ((at0 0x21001 (.fromInt 0x43000)).ic.toInt + 1).toNat) ∧
    decode (at0 0x21001 (.fromInt 0x43000)).acc = .ok (.halt 0) ∧
    ((Instr.halt 0).needsAddress = true → (Instr.halt 0).operand < 1000) :=
  ⟨by decide, by decide, ready_of_facts (by decide), by decide, by decide⟩

/-- A STORE followed by BRANCHZERO, and one followed by BRANCHNEG. -/
theorem witness_StoreDestroysTheAccumulator :
    ((at0 0x21010 (.fromInt 5) [(1, .fromInt 0x42123)]).Ready (.store 0x10) ∧
      ∃ t, step (at0 0x21010 (.fromInt 5) [(1, .fromInt 0x42123)]) = .next t ∧ t.Ready (.branchZero 0x123)) ∧
    ((at0 0x21010 (.fromInt 5) [(1, .fromInt 0x41123)]).Ready (.store 0x10) ∧
      ∃ t, step (at0 0x21010 (.fromInt 5) [(1, .fromInt 0x41123)]) = .next t ∧ t.Ready (.branchNeg 0x123)) := by
  refine ⟨⟨ready_of_facts (by decide), ?_⟩, ⟨ready_of_facts (by decide), ?_⟩⟩
  · exact (steps_to (p := readyFacts (.branchZero 0x123)) (by decide)).imp fun _ h => ⟨h.1, ready_of_facts h.2⟩
  · exact (steps_to (p := readyFacts (.branchNeg 0x123)) (by decide)).imp fun _ h => ⟨h.1, ready_of_facts h.2⟩

theorem witness_SnapshotShowsRegistersAndMemory : (at0 0x43000).mem.wf = true ∧
    ({ at0 0x43000 with output := [.newline] } : State).snapshot = (at0 0x43000).snapshot := ⟨by decide, rfl⟩

theorem witness_ReadIntStoresItsToken : (at0 0x103E7).mem.wf = true ∧ 999 < 1000 ∧
    (at0 0x103E7 .zero [] [.int (-1048575), .int 1]).input = .int (-1048575) :: [.int 1] ∧
    (-1048575 : Int).natAbs ≤ 0xFFFFF ∧ 0xFFFFF < (1048576 : Int).natAbs := by decide

theorem witness_WriteIntEmitsTheIntegerPart :
    ((at0 0x113E7 .zero [(999, ⟨true, 0, [8]⟩)]).cell 999).overflow = false ∧ 999 < 1000 := by decide

/-- A string that fits to the last cell, one of 4096 characters, and one cut by the end of the memory. -/
theorem witness_ReadStringStoresThePackedString : (at0 0x133E6 .zero [] [.string [0x41, 0x42]]).mem.wf = true ∧
    (at0 0x133E6 .zero [] [.string [0x41, 0x42]]).input = .string [0x41, 0x42] :: [] ∧
    ([0x41, 0x42] : List (Fin 256)).length ≤ 0xFFF ∧ 998 + ([0x41, 0x42] : List (Fin 256)).length / 2 < 1000 ∧
    0xFFF < (List.replicate 4096 (0x41 : Fin 256)).length ∧
    1000 ≤ 999 + ([0x41, 0x42] : List (Fin 256)).length / 2 := by
  rw [List.length_replicate]
  decide

/-- A length as large as the cells allow, with the third character in a lower field; one with a lower field of 0, of which a
third character does not fit; and a length of 0. -/
theorem witness_WriteStringEmitsTheLengthItsWordSays :
    let s := at0 0x143E6 .zero [(998, .fromInt 0x341), (999, .fromInt 0x4243)]
    let u := at0 0x143E6 .zero [(998, .fromInt 0x241), (999, .fromInt 0x4200)]
    (s.mem.inRange = true ∧ s.storedChars 998 = [0x41, 0x42, 0x43] ∧ (s.cell 998).ip / 0x100 = 3) ∧
    (u.mem.inRange = true ∧ u.storedChars 998 = [0x41, 0x42] ∧ (u.cell 998).ip / 0x100 = 2) ∧
    (at0 0x143E7).mem.inRange = true ∧ ((at0 0x143E7).cell 999).ip / 0x100 ≤ ((at0 0x143E7).storedChars 999).length := by
  decide

/-- One character more than the cells hold: one cell, and two cells of which the second has a lower field of 0. -/
theorem witness_WriteStringCutByTheEndOfMemory :
    let s := at0 0x143E7 .zero [(999, .fromInt 0x241)]
    let u := at0 0x143E6 .zero [(998, .fromInt 0x341), (999, .fromInt 0x4200)]
    (s.mem.inRange = true ∧ s.storedChars 999 = [0x41] ∧ (s.cell 999).ip / 0x100 = 2) ∧
    (u.mem.inRange = true ∧ u.storedChars 998 = [0x41, 0x42] ∧ (u.cell 998).ip / 0x100 = 3) := by decide

theorem witness_StringRoundTrip : (at0 0x13020 .zero [] [.string [0x41, 0, 0x43]]).mem.wf = true ∧
    (at0 0x13020 .zero [] [.string [0x41, 0, 0x43]]).input = .string [0x41, 0, 0x43] :: [] ∧
    ([0x41, 0, 0x43] : List (Fin 256)).length ≤ 0xFFF ∧ 0x20 + ([0x41, 0, 0x43] : List (Fin 256)).length / 2 < 1000 ∧
    ∀ k c, 0 < k → ([0x41, 0, 0x43] : List (Fin 256))[2 * k]? = some c → c ≠ 0 := by
  refine ⟨by decide, by decide, by decide, by decide, ?_⟩
  intro k c hk h
  match k, hk with
  | 1, _ => cases h; decide
  | k + 2, _ => rw [List.getElem?_eq_none (by simp; omega)] at h; cases h

theorem witness_ReadDoubleStoresTheEncodedToken : (at0 0x153E7 .zero [] [.double .notANumber]).mem.wf = true ∧
    (at0 0x153E7 .zero [] [.double .notANumber]).input = .double .notANumber :: [] ∧ 999 < 1000 := by decide

theorem witness_WriteDoubleEmitsTheWord :
    ((at0 0x163E7 .zero [(999, ⟨true, 0, [8]⟩)]).cell 999).overflow = false ∧ 999 < 1000 := by decide

theorem witness_LoadCopiesTheCell :
    ((at0 0x203E7 .zero [(999, ⟨true, 0, []⟩)]).cell 999).overflow = false ∧ 999 < 1000 := by decide

theorem witness_StoreWritesTheCellAndClearsTheAccumulator : (at0 0x213E7 ⟨true, 0xFFFFF, []⟩).mem.wf = true ∧
    (at0 0x213E7 ⟨true, 0xFFFFF, []⟩).acc.overflow = false ∧ 999 < 1000 := by decide

theorem witness_FloatingArithmeticReplacesTheAccumulator :
    ((at0 0x263E7 .zero [(999, ⟨false, 0, [1]⟩)]).cell 999).overflow = false ∧
    ((at0 0x263E7 .zero [(999, ⟨false, 0, [1]⟩)]).cell 999).val ≠ 0 ∧ 999 < 1000 := by decide +kernel

theorem witness_ZeroDivisorIsDivisionByZero :
    ((at0 0x263E7 .zero [(999, ⟨true, 0, [0]⟩)]).cell 999).overflow = false ∧
    ((at0 0x263E7 .zero [(999, ⟨true, 0, [0]⟩)]).cell 999).val = 0 ∧
    ((at0 0x323E7 .zero [(999, ⟨true, 0, [8]⟩)]).cell 999).ip = 0 ∧ 999 < 1000 := by decide +kernel

/-- The instructions; then a state that holds an overflowed result, and one that holds the largest that is none. -/
theorem witness_IntegerAddSubtractMultiply :
    ((at0 0x303E7 (.fromInt (-0xFFFFF)) [(999, .fromInt 0xFFFFF)]).cell 999).overflow = false ∧
    (at0 0x303E7 (.fromInt (-0xFFFFF)) [(999, .fromInt 0xFFFFF)]).acc.overflow = false ∧ 999 < 1000 ∧
    (let t := at999 0x43000 (.fromInt 0x100000);
      t.acc = .fromInt 0x100000 ∧ t.run = .running ∧ 0 ≤ t.ic.toInt ∧ t.ic.toInt < 1000 ∧
      (t.cell t.ic.toInt.toNat).overflow = false ∧ 0xFFFFF < (0x100000 : Int).natAbs) ∧
    (let t := at999 0x43000 (.fromInt (-0xFFFFF));
      t.acc = .fromInt (-0xFFFFF) ∧ t.run = .running ∧ (t.cell t.ic.toInt.toNat).overflow = false ∧
      (-0xFFFFF : Int).natAbs ≤ 0xFFFFF ∧ decode (t.cell t.ic.toInt.toNat) = .ok (.halt 0)) := by decide

theorem witness_IntegerDivideAndRemainder :
    ((at0 0x323E7 (.fromInt 0xFFFFF) [(999, .fromInt (-1))]).cell 999).overflow = false ∧
    ((at0 0x323E7 (.fromInt 0xFFFFF) [(999, .fromInt (-1))]).cell 999).toInt ≠ 0 ∧
    (at0 0x323E7 (.fromInt 0xFFFFF) [(999, .fromInt (-1))]).acc.overflow = false ∧ 999 < 1000 := by decide

/-- A power that is 0 or more; a negative one of 2; and 0 to a negative power. -/
theorem witness_IntegerPowerCompletesWhereItHasAValue :
    ((at0 0x353E7 (.fromInt 2)).cell 999).overflow = false ∧ 0 ≤ ((at0 0x353E7 (.fromInt 2)).cell 999).toInt ∧
    ((at0 0x353E7 (.fromInt 2) [(999, .fromInt (-1))]).cell 999).toInt < 0 ∧
    (at0 0x353E7 (.fromInt 2) [(999, .fromInt (-1))]).acc.toInt ≠ 0 ∧
    ((at0 0x353E7 .zero [(999, .fromInt (-1))]).cell 999).overflow = false ∧
    (at0 0x353E7 .zero [(999, .fromInt (-1))]).acc.toInt = 0 ∧
    ((at0 0x353E7 .zero [(999, .fromInt (-1))]).cell 999).toInt < 0 ∧ 999 < 1000 := by decide

/-- A step from a state without a negative zero; and a DIVIDE_INT by 0 with one in the accumulator. -/
theorem witness_NegativeZeroIsNeverComputed :
    ((at0 0x30010 (.fromInt 5)).NoNegativeZero ∧ ∃ t, step (at0 0x30010 (.fromInt 5)) = .next t) ∧
    ∃ t, exec (.divideInt 0x10) (at0 0x32010 ⟨true, 0, []⟩) = .next t ∧ t.acc.isNegativeZero = true := by
  refine ⟨⟨⟨by decide, by decide, fun a => ?_⟩, steps (by decide)⟩, _, rfl, by decide⟩
  rw [State.cell_eq, show (at0 0x30010 (.fromInt 5)).mem = [(0, .fromInt 0x30010)] from rfl, Memory.get_cons]
  split <;> rfl

/-- Words without fraction, and a zero. -/
theorem witness_WordsCompareByTheirExactValue : (Word.mk true 7 []).fr = [] ∧ (Word.mk true 0 []).fr = [] ∧
    (Word.mk true 0 [0]).isZero = true := by decide

end Tests
end Sys2Proof
end

section
/-! PROOFS. How far the cycle of a step came, and where an instruction leaves the counter: what the proofs about whole
steps start from. -/

namespace Sys2Proof
namespace Machine

/-- The next state `t` of a running state `s`: a fault before anything is written (steps 1 and 2), a fault after `IR`,
`OPC` and `OPD` are written (steps 4 and 5, and the look-up), or what the dispatched instruction answers. -/
inductive CycleResult (s t : State) : Prop where
  | counterOutside (bounds : inBounds s.ic.toInt = false) (eq : t = raise .programCounterOutOfBounds s)
  | fetchFault (bounds : inBounds s.ic.toInt = true) (eq : t = raise .wordOverflow s)
  | checkFault (k : Fault) (kind : k ≠ .programCounterOutOfBounds) (bounds : inBounds s.ic.toInt = true)
      (eq : t = raise k s.front)
  | dispatched (i : Instr) (ready : s.Ready i) (answer : exec i s.front = .next t)

theorem cycleResult_of_step {s t : State} (hrun : s.run = .running) (h : step s = .next t) : CycleResult s t := by
  obtain ⟨hb, hs⟩ | ⟨hb, _, hs⟩ | ⟨hb, _, ⟨_, hs⟩ | ⟨_, _, hs⟩ | ⟨_, _, _, _, hs⟩⟩ | ⟨i, hi, hs⟩ := step_cases hrun <;>
    rw [hs] at h
  · cases h; exact .counterOutside hb rfl
  · cases h; exact .fetchFault hb rfl
  · cases h; exact .checkFault _ (by simp) hb rfl
  · cases h; exact .checkFault _ (by simp) hb rfl
  · cases h; exact .checkFault _ (by simp) hb rfl
  · exact .dispatched i hi h

/-- A step leaves an ended run as it is, and takes a cycle in a running one. -/
theorem cycleResult_or_eq {s t : State} (h : step s = .next t) : t = s ∨ (s.run = .running ∧ CycleResult s t) := by
  by_cases hrun : s.run = .running
  · exact .inr ⟨hrun, cycleResult_of_step hrun h⟩
  · rw [step_of_not_running hrun] at h
    cases h
    exact .inl rfl

/-- The counter after a normal end is an integer Word: the operand, or one more than the old value. -/
theorem nextCounter_cases (i : Instr) (s : State) :
    nextCounter i s = .fromInt i.operand ∨ nextCounter i s = .fromInt (s.ic.toInt + 1) := by
  cases i with
  | branch a => exact .inl rfl
  | branchNeg a => simp only [nextCounter, Instr.operand]; split <;> simp
  | branchZero a => simp only [nextCounter, Instr.operand]; split <;> simp
  | _ => exact .inr rfl

/-- However an instruction ends, it leaves `IC` or writes the next counter into it. -/
theorem Ends.ic_cases {i : Instr} {s t : State} (h : Ends i s t) : t.ic = s.ic ∨ t.ic = nextCounter i s := by
  cases h with
  | normally _ ic => exact .inr ic
  | halted _ _ eq => exact .inl (by rw [eq])
  | waiting _ _ eq => exact .inl (by rw [eq])
  | faulted _ _ _ ic => exact .inl ic

end Machine
end Sys2Proof
end

section
/-! PROOFS. Every step keeps the invariant (R24 to R26, R30, R140, R188, R200, R205): the faults of steps 1 to 5, the
registers that steps 1 to 3 write, and the instruction that is dispatched. -/

namespace Sys2Proof
namespace Machine

/-- A fault on a cell keeps the invariant. -/
theorem State.Inv.raise {s : State} (h : s.Inv) {k : Fault} (hk : k ≠ .programCounterOutOfBounds)
    (hic : s.ic.toInt < 1000) : (Machine.raise k s).Inv where
  memoryCanonical := h.memoryCanonical
  memoryInRange := h.memoryInRange
  counterValue := h.counterValue
  instructionInRange := h.instructionInRange
  derivedRegisters := h.derivedRegisters
  counterFault hf := absurd (RunState.faulted.inj hf) hk
  otherEnds _ _ := hic
  haltedShowsHalt hh := nomatch hh
  characterCodes := h.characterCodes

/-- The fault of step 1 keeps the invariant: `IC` is not negative, so it is beyond the memory (R205). -/
theorem State.Inv.raiseCounter {s : State} (h : s.Inv) (hb : inBounds s.ic.toInt = false) :
    (Machine.raise .programCounterOutOfBounds s).Inv where
  memoryCanonical := h.memoryCanonical
  memoryInRange := h.memoryInRange
  counterValue := h.counterValue
  instructionInRange := h.instructionInRange
  derivedRegisters := h.derivedRegisters
  counterFault _ := by
    have hout := mt (inBounds_iff s.ic.toInt).2 (by simp [hb])
    obtain ⟨_, hpos, _⟩ := h.counterValue
    rw [raise_ic]
    omega
  otherEnds _ hf := absurd rfl hf
  haltedShowsHalt hh := nomatch hh
  characterCodes := h.characterCodes

/-- Steps 1 to 3 keep the invariant: `IR` comes from a cell, and `OPC` and `OPD` are written from it. -/
theorem State.Inv.front {s : State} (h : s.Inv) (hrun : s.run = .running) : s.front.Inv where
  memoryCanonical := h.memoryCanonical
  memoryInRange := h.memoryInRange
  counterValue := h.counterValue
  instructionInRange := Memory.overflow_get h.memoryInRange _
  derivedRegisters := ⟨rfl, rfl⟩
  counterFault hf := by simp [hrun] at hf
  otherEnds hr := absurd hrun hr
  haltedShowsHalt hh := by simp [hrun] at hh
  characterCodes := h.characterCodes

/-- What an instruction does keeps the part of the invariant that speaks neither of `IC` nor of `RUN`. -/
theorem Effect.inv {i : Instr} {s t : State} (he : Effect i s t) (h : s.Inv)
    (counterValue : t.ic = .fromInt t.ic.toInt ∧ 0 ≤ t.ic.toInt ∧ t.ic.toInt ≤ 0xFFF)
    (counterFault : t.run = .faulted .programCounterOutOfBounds → 1000 ≤ t.ic.toInt)
    (otherEnds : t.run ≠ .running → t.run ≠ .faulted .programCounterOutOfBounds → t.ic.toInt < 1000)
    (haltedShowsHalt : t.run = .halted → t.opc = .fromInt 0x43 ∧ t.acc.overflow = false) : t.Inv where
  memoryCanonical := he.canonical h.memoryCanonical
  memoryInRange := he.inRange h.memoryInRange
  counterValue := counterValue
  instructionInRange := he.ir ▸ h.instructionInRange
  derivedRegisters := by rw [he.opc, he.opd, he.ir]; exact h.derivedRegisters
  counterFault := counterFault
  otherEnds := otherEnds
  haltedShowsHalt := haltedShowsHalt
  characterCodes c hc := by
    obtain ⟨es, ho, _, hes⟩ := he.output
    rw [ho, List.mem_append] at hc
    exact hc.elim (h.characterCodes c) (hes c)

/-- The counter of a dispatched instruction stays an integer Word from 0 to 0xFFF: the operand fits its field, and one
more than a cell's address does too (R24). -/
theorem nextCounter_value {i : Instr} {s : State}
    (hic : 0 ≤ s.ic.toInt ∧ s.ic.toInt < 1000) (hop : i.operand < 0x1000) :
    nextCounter i s = .fromInt (nextCounter i s).toInt ∧ 0 ≤ (nextCounter i s).toInt ∧
      (nextCounter i s).toInt ≤ 0xFFF := by
  obtain h | h := nextCounter_cases i s <;> rw [h, Word.toInt_fromInt]
  · exact ⟨rfl, by omega, by omega⟩
  · exact ⟨rfl, by omega, by omega⟩

/-- HALT is dispatched with its opcode in `OPC`. -/
theorem State.Ready.opc_halt {s : State} {a : Nat} (h : s.Ready (.halt a)) : s.front.opc = .fromInt 0x43 := by
  rw [State.front_opc, ← (decode_ok h.decoded).1]
  rfl

/-- A dispatched instruction keeps the invariant, however it ends. -/
theorem State.Inv.of_exec {i : Instr} {s t : State} (h : s.Inv)
    (hi : s.Ready i) (ht : exec i s.front = .next t) : t.Inv := by
  have he := exec_effect ht
  have hf := h.front hi.running
  have hic := hi.counter
  have hrun : s.front.run = .running := hi.running
  cases he.ends with
  | normally run ic =>
    rw [hrun] at run
    refine he.inv hf ?_ (by simp [run]) (by simp [run]) (by simp [run])
    rw [ic]
    exact nextCounter_value hic (operand_lt_of_decode hi.decoded).2
  | halted a halt eq =>
    subst halt eq
    exact he.inv hf hf.counterValue nofun (fun _ _ => hic.2) (fun _ => ⟨hi.opc_halt, hi.accumulator⟩)
  | waiting _ _ eq => rw [eq]; exact hf
  | faulted k run kind ic =>
    refine he.inv hf ?_ (by simp [run, kind]) (fun _ _ => ?_) (by simp [run])
    · rw [ic]; exact hf.counterValue
    · rw [ic]; exact hic.2

/-- Settles O35, by how far the cycle came. -/
theorem everyStepKeepsTheInvariant : Obligations.EveryStepKeepsTheInvariant := by
  intro s t hs h
  obtain rfl | ⟨hrun, hc⟩ := cycleResult_or_eq h
  · exact hs
  cases hc with
  | counterOutside hb eq => rw [eq]; exact hs.raiseCounter hb
  | fetchFault hb eq => rw [eq]; exact hs.raise (by simp) ((inBounds_iff _).1 hb).2
  | checkFault k hk hb eq => rw [eq]; exact (hs.front hrun).raise hk ((inBounds_iff _).1 hb).2
  | dispatched i hi ht => exact hs.of_exec hi ht

end Machine
end Sys2Proof
end

section
/-! PROOFS. No step computes a negative zero (R31): what a step copies and what it computes; and the arithmetic
instructions by the shared operations they are. -/

namespace Sys2Proof
namespace Machine

/-- The rule of R31 for a state, register by register. -/
theorem noNegativeZero_iff (s : State) : s.NoNegativeZero ↔
    s.mem.wf = true ∧ (s.acc.isNegativeZero = false ∧ s.ic.isNegativeZero = false ∧ s.ir.isNegativeZero = false ∧
      s.opc.isNegativeZero = false ∧ s.opd.isNegativeZero = false) ∧ ∀ a, (s.cell a).isNegativeZero = false :=
  ⟨fun h => ⟨h.memoryCanonical, by simpa using h.registers, h.cells⟩,
    fun ⟨hm, hr, hc⟩ => ⟨hm, by simpa using hr, hc⟩⟩

theorem State.NoNegativeZero.raise {s : State} (h : s.NoNegativeZero) (k : Fault) :
    (Machine.raise k s).NoNegativeZero :=
  ⟨h.memoryCanonical, h.registers, h.cells⟩

/-- Steps 1 to 3 copy a cell and write two integers. -/
theorem State.NoNegativeZero.front {s : State} (h : s.NoNegativeZero) : s.front.NoNegativeZero := by
  obtain ⟨hm, ⟨hacc, hic, _, _, _⟩, hcells⟩ := (noNegativeZero_iff s).1 h
  exact (noNegativeZero_iff _).2
    ⟨hm, ⟨hacc, hic, hcells _, Word.isNegativeZero_fromInt _, Word.isNegativeZero_fromInt _⟩, hcells⟩

@[simp] theorem isNegativeZero_nextCounter (i : Instr) (s : State) : (nextCounter i s).isNegativeZero = false := by
  obtain h | h := nextCounter_cases i s <;> rw [h, Word.isNegativeZero_fromInt]

/-- An instruction copies Words that the state holds and writes Words that are no negative zero. -/
theorem State.NoNegativeZero.of_exec {i : Instr} {s t : State} (h : s.NoNegativeZero) (ht : exec i s = .next t) :
    t.NoNegativeZero := by
  obtain ⟨hm, ⟨hacc, hic, hir, hopc, hopd⟩, hcells⟩ := (noNegativeZero_iff s).1 h
  have he := exec_effect ht
  have ho := exec_origin ht
  refine (noNegativeZero_iff t).2 ⟨he.canonical hm, ⟨?_, ?_, he.ir ▸ hir, he.opc ▸ hopc, he.opd ▸ hopd⟩, fun b => ?_⟩
  · obtain h1 | ⟨b, h1⟩ | h1 := ho.acc
    · rw [h1, hacc]
    · rw [h1, hcells b]
    · exact h1
  · obtain h1 | h1 := he.ends.ic_cases
    · rw [h1, hic]
    · rw [h1, isNegativeZero_nextCounter]
  · obtain h1 | h1 | h1 := ho.cells hm b
    · rw [h1, hcells b]
    · rw [h1, hacc]
    · exact h1

/-- The answer `r` in state `s` leaves no negative zero in the accumulator, unless it is a fault that changes nothing
but `RUN`. -/
def LeavesNoNegativeZero (s : State) (r : Result) : Prop :=
  ∀ t, r = .next t → t.acc.isNegativeZero = true → ∃ k, t = raise k s

theorem LeavesNoNegativeZero.raise (k : Fault) (s : State) : LeavesNoNegativeZero s (.next (Machine.raise k s)) := by
  rintro t ⟨⟩ _
  exact ⟨k, rfl⟩

theorem LeavesNoNegativeZero.refused (r : Refusal) (s : State) : LeavesNoNegativeZero s (.refused r) := nofun

theorem LeavesNoNegativeZero.finishAcc {w : Word} (hw : w.isNegativeZero = false) (s : State) :
    LeavesNoNegativeZero s (Machine.finishAcc w s) := by
  rintro t ⟨⟩ hz
  simp [hw] at hz

theorem LeavesNoNegativeZero.withCell {a : Nat} {s : State} {f : Word → Result}
    (hf : ∀ m, LeavesNoNegativeZero s (f m)) :
    LeavesNoNegativeZero s (Machine.withCell a s f) := by
  obtain ⟨_, _, h⟩ | ⟨_, h⟩ | ⟨_, _, h⟩ := withCell_cases a s f <;> rw [h]
  · exact hf _
  · exact .raise _ s
  · exact .raise _ s

theorem leavesNoNegativeZero_floatIntoAcc (op : FloatOp) (a : Nat) (s : State) :
    LeavesNoNegativeZero s (floatIntoAcc op a s) :=
  .withCell fun m => .finishAcc (isNegativeZero_floatArith op s.acc m) s

theorem leavesNoNegativeZero_intIntoAcc (op : IntOp) (a : Nat) (s : State) :
    LeavesNoNegativeZero s (intIntoAcc op a s) :=
  .withCell fun m => .finishAcc (isNegativeZero_intArith op s.acc m) s

theorem leavesNoNegativeZero_floatDivideIntoAcc (op : FloatOp) (a : Nat) (s : State) :
    LeavesNoNegativeZero s (floatDivideIntoAcc op a s) := by
  refine .withCell fun m => ?_
  split
  · exact .raise _ s
  · exact .finishAcc (isNegativeZero_floatArith op s.acc m) s

theorem leavesNoNegativeZero_intDivideIntoAcc (op : IntOp) (a : Nat) (s : State) :
    LeavesNoNegativeZero s (intDivideIntoAcc op a s) := by
  refine .withCell fun m => ?_
  split
  · exact .raise _ s
  · exact .finishAcc (isNegativeZero_intArith op s.acc m) s

theorem leavesNoNegativeZero_powerInt (a : Nat) (s : State) : LeavesNoNegativeZero s (execPowerInt a s) := by
  refine .withCell fun m => ?_
  split
  · exact .refused _ s
  · exact .finishAcc (isNegativeZero_intArith .exponent s.acc m) s

/-- The twelve arithmetic instructions are these five shared operations. -/
theorem leavesNoNegativeZero_arithmetic {i : Instr} {a : Nat} (s : State)
    (hi : i ∈ [.addDouble a, .subtractDouble a, .divideDouble a, .multiplyDouble a, .remainderDouble a, .powerDouble a,
      .addInt a, .subtractInt a, .divideInt a, .multiplyInt a, .remainderInt a, .powerInt a]) :
    LeavesNoNegativeZero s (exec i s) := by
  simp only [List.mem_cons, List.not_mem_nil, or_false] at hi
  rcases hi with rfl | rfl | rfl | rfl | rfl | rfl | rfl | rfl | rfl | rfl | rfl | rfl
  · exact leavesNoNegativeZero_floatIntoAcc .add a s
  · exact leavesNoNegativeZero_floatIntoAcc .subtract a s
  · exact leavesNoNegativeZero_floatDivideIntoAcc .divide a s
  · exact leavesNoNegativeZero_floatIntoAcc .multiply a s
  · exact leavesNoNegativeZero_floatDivideIntoAcc .remainder a s
  · exact leavesNoNegativeZero_floatIntoAcc .power a s
  · exact leavesNoNegativeZero_intIntoAcc .add a s
  · exact leavesNoNegativeZero_intIntoAcc .subtract a s
  · exact leavesNoNegativeZero_intDivideIntoAcc .divide a s
  · exact leavesNoNegativeZero_intIntoAcc .multiply a s
  · exact leavesNoNegativeZero_intDivideIntoAcc .mod a s
  · exact leavesNoNegativeZero_powerInt a s

theorem noNegativeZero_reset : State.reset.NoNegativeZero :=
  (noNegativeZero_iff _).2 ⟨rfl, by decide, fun _ => rfl⟩

/-- Settles O59: the step by how far the cycle came, the arithmetic by its shared operations. -/
theorem negativeZeroIsNeverComputed : Obligations.NegativeZeroIsNeverComputed := by
  refine ⟨noNegativeZero_reset, fun s t hs h => ?_, fun s t a i hi => leavesNoNegativeZero_arithmetic s hi t⟩
  obtain rfl | ⟨_, hc⟩ := cycleResult_or_eq h
  · exact hs
  cases hc with
  | counterOutside _ eq => rw [eq]; exact hs.raise _
  | fetchFault _ eq => rw [eq]; exact hs.raise _
  | checkFault k _ _ eq => rw [eq]; exact hs.front.raise k
  | dispatched i _ ht => exact hs.front.of_exec ht

end Machine
end Sys2Proof
end

section
/-! PROOFS. The memory as a function of its cells, the Word as a function of its text, and the snapshot (R30, R35). -/

namespace Sys2Proof
namespace Word

/-- A Word's text without its sign, after any number of zero digits, parses to these digits and its fraction. -/
theorem parseBody_textBody (k : Nat) (w : Word) :
    parseBody (List.replicate k '0' ++ w.textBody) = some (List.replicate k 0 ++ hexDigits w.ip, w.fr) := by
  have hzeros : List.replicate k '0' = (List.replicate k (0 : HexDigit)).map digitChar := by
    rw [List.map_replicate]; rfl
  rw [textBody, hzeros, ← List.append_assoc, ← List.map_append]
  split
  · next hf => rw [hf, List.append_nil, parseBody_integer]
  · exact parseBody_fraction _ _

/-- The parser reads a Word back from its text, filled with zero digits or not. -/
theorem parseWord_getString (w : Word) (n : Nat) : parseWord (w.getString n) = w := by
  have hdigits (k : Nat) : ofDigits (List.replicate k 0 ++ hexDigits w.ip) = w.ip := by
    rw [ofDigits_append, ofDigits_zeros, ofDigits_hexDigits, Nat.zero_mul, Nat.zero_add]
  rw [getString, signChar, parseWord]
  cases hneg : w.neg <;> simp [parseBody_textBody, hdigits, ← hneg]

/-- Words with the same fixed-width text are the same Word. -/
theorem getString_injective (n : Nat) : Function.Injective fun w => getString w n :=
  Function.LeftInverse.injective (g := parseWord) fun w => parseWord_getString w n

end Word

namespace Machine
namespace Memory

/-- No listed address of a canonical memory is below its first one. -/
theorem head_le_of_get_ne {lo b c : Nat} {v : Word} {m : Memory} (hm : wfFrom lo ((b, v) :: m) = true)
    (hc : get ((b, v) :: m) c ≠ unlisted) : b ≤ c := by
  obtain ⟨_, hb, hv, hrest⟩ := (wfFrom_cons lo b v m).1 hm
  by_contra hlt
  exact hc (get_below (lo := b) ((wfFrom_cons b b v m).2 ⟨le_rfl, hb, hv, hrest⟩) (by omega))

@[simp] theorem get_head (a : Nat) (w : Word) (m : Memory) : get ((a, w) :: m) a = w := by simp [get_cons]

/-- Canonical memories with the same 1000 cells are the same list: the first listed address of either is the lowest cell
that does not hold what an unlisted one holds. -/
theorem eq_of_get_eq {lo : Nat} {m m' : Memory} (hm : wfFrom lo m = true) (hm' : wfFrom lo m' = true)
    (h : ∀ a, a < Config.memorySize → get m a = get m' a) : m = m' := by
  induction m generalizing lo m' with
  | nil =>
    cases m' with
    | nil => rfl
    | cons c' m' =>
      obtain ⟨b, v⟩ := c'
      obtain ⟨_, hb, hv, _⟩ := (wfFrom_cons lo b v m').1 hm'
      exact absurd (by simpa using (h b hb).symm) hv
  | cons c m ih =>
    obtain ⟨a, w⟩ := c
    obtain ⟨_, ha, hw, hrest⟩ := (wfFrom_cons lo a w m).1 hm
    cases m' with
    | nil => exact absurd (by simpa using h a ha) hw
    | cons c' m' =>
      obtain ⟨b, v⟩ := c'
      obtain ⟨_, hb, hv, hrest'⟩ := (wfFrom_cons lo b v m').1 hm'
      have hba : b ≤ a := head_le_of_get_ne hm' (by rwa [← h a ha, get_head])
      have hab : a ≤ b := head_le_of_get_ne hm (by rwa [h b hb, get_head])
      obtain rfl : a = b := Nat.le_antisymm hab hba
      have hwv : w = v := by simpa using h a ha
      have htail : m = m' := ih hrest hrest' fun c hc => by
        by_cases hle : c < a + 1
        · rw [get_below hrest hle, get_below hrest' hle]
        · have hne : c ≠ a := by omega
          simpa only [get_cons, if_neg hne] using h c hc
      rw [hwv, htail]

end Memory

/-- Settles O15: the addresses rise, so the cells determine the list from its head on. -/
theorem memoriesWithEqualCellsAreEqual : Obligations.MemoriesWithEqualCellsAreEqual :=
  fun _ _ hm hm' h => Memory.eq_of_get_eq hm hm' h

/-- Settles O39: the text form is injective, and the cells determine a canonical memory. -/
theorem snapshotShowsRegistersAndMemory : Obligations.SnapshotShowsRegistersAndMemory := by
  intro s t hs ht h
  have hinj := Word.getString_injective snapshotWidth
  simp only [State.snapshot, Snapshot.mk.injEq, List.map_inj_left, List.mem_range] at h
  obtain ⟨hacc, hic, hir, hopc, hopd, hcells⟩ := h
  exact ⟨hinj hacc, hinj hic, hinj hir, hinj hopc, hinj hopd,
    Memory.eq_of_get_eq hs ht fun a ha => hinj (hcells a ha)⟩

end Machine
end Sys2Proof
end

section
/-! PROOFS. The instructions that end a step in `Halted`, those that write the accumulator, and the ends of a run (R23,
R27, R119). -/

namespace Sys2Proof
namespace Machine

/-- From a running state only HALT ends in `Halted`, and it writes nothing else. -/
theorem Ends.halt_of_halted {i : Instr} {s t : State} (h : Ends i s t) (hrun : s.run = .running)
    (ht : t.run = .halted) : ∃ a, i = .halt a ∧ t = { s with run := .halted } := by
  cases h with
  | normally run => simp [run, hrun] at ht
  | halted a halt eq => exact ⟨a, halt, eq⟩
  | waiting _ _ eq => simp [eq, hrun] at ht
  | faulted _ run => simp [run] at ht

/-- A cycle that ends in `Halted` has dispatched HALT. -/
theorem CycleResult.ready_halt {s t : State} (h : CycleResult s t) (ht : t.run = .halted) :
    ∃ a, s.Ready (.halt a) ∧ t = { s.front with run := .halted } := by
  cases h with
  | counterOutside _ eq => simp [eq] at ht
  | fetchFault _ eq => simp [eq] at ht
  | checkFault _ _ _ eq => simp [eq] at ht
  | dispatched i hi hx =>
    obtain ⟨a, rfl, eq⟩ := (exec_effect hx).ends.halt_of_halted hi.running ht
    exact ⟨a, hi, eq⟩

/-- Settles O27: of the results of a cycle only HALT's is `Halted`. -/
theorem haltedIsReachedByHaltAlone : Obligations.HaltedIsReachedByHaltAlone := by
  intro s t hrun h
  have hc := cycleResult_of_step hrun h
  refine ⟨⟨fun ht => ?_, fun ⟨a, ha⟩ => ?_⟩, fun ht => ?_⟩
  · obtain ⟨a, ha, _⟩ := hc.ready_halt ht
    exact ⟨a, ha⟩
  · rw [step_ready ha, exec_halt] at h
    cases h
    rfl
  · obtain ⟨_, _, rfl⟩ := hc.ready_halt ht
    rfl

/-- The instructions that can write the accumulator, as a list. -/
theorem mem_of_writesAcc {i : Instr} (h : writesAcc i = true) :
    i ∈ [.load i.operand, .store i.operand, .addDouble i.operand, .subtractDouble i.operand, .divideDouble i.operand,
      .multiplyDouble i.operand, .remainderDouble i.operand, .powerDouble i.operand, .addInt i.operand,
      .subtractInt i.operand, .divideInt i.operand, .multiplyInt i.operand, .remainderInt i.operand,
      .powerInt i.operand] := by
  cases i <;> simp [writesAcc, Instr.operand] at h ⊢

/-- A cycle that changes the accumulator has dispatched one of its writers. -/
theorem CycleResult.ready_writesAcc {s t : State} (h : CycleResult s t) (ht : t.acc ≠ s.acc) :
    ∃ i, s.Ready i ∧ writesAcc i = true := by
  cases h with
  | counterOutside _ eq => exact absurd (by rw [eq, raise_acc]) ht
  | fetchFault _ eq => exact absurd (by rw [eq, raise_acc]) ht
  | checkFault _ _ _ eq => exact absurd (by rw [eq, raise_acc, State.front_acc]) ht
  | dispatched i hi hx => exact ⟨i, hi, (exec_effect hx).acc.resolve_left ht⟩

/-- Settles O29: of the results of a cycle only those of the accumulator's writers change it. -/
theorem onlyLoadStoreAndArithmeticWriteTheAccumulator : Obligations.OnlyLoadStoreAndArithmeticWriteTheAccumulator := by
  intro s t h hne
  obtain rfl | ⟨_, hc⟩ := cycleResult_or_eq h
  · exact absurd rfl hne
  obtain ⟨i, hi, hw⟩ := hc.ready_writesAcc hne
  exact ⟨i.operand, i, hi, mem_of_writesAcc hw⟩

/-- A state that a step leaves as it is stays for any number of steps. -/
theorem run_of_step_eq (M : Host.Core) {s : M.State} (h : M.step s = .next s) (n : Nat) : M.run n s = .next s := by
  induction n with
  | zero => rfl
  | succ n ih => rw [Host.Core.run, h]; exact ih

/-- Settles O24: a step of an ended run leaves the state as it is. -/
theorem terminalStatesStay : Obligations.TerminalStatesStay :=
  fun _ n hs => run_of_step_eq Sys2Proof.core (step_of_not_running hs) n

end Machine
end Sys2Proof
end

section
/-! PROOFS. The invariant after reset, and under what the host does before and between the cycles (R33, R51, R139,
R232). -/

namespace Sys2Proof
namespace Machine

/-- The invariant after reset. -/
theorem inv_reset : State.reset.Inv where
  memoryCanonical := rfl
  memoryInRange := rfl
  counterValue := by decide
  instructionInRange := rfl
  derivedRegisters := by decide
  counterFault := nofun
  otherEnds hr := absurd rfl hr
  haltedShowsHalt := nofun
  characterCodes := nofun

/-- The invariant speaks of the input not at all. -/
theorem State.Inv.withInput {s : State} (h : s.Inv) (input : List Token) : State.Inv { s with input := input } :=
  ⟨h.memoryCanonical, h.memoryInRange, h.counterValue, h.instructionInRange, h.derivedRegisters, h.counterFault,
    h.otherEnds, h.haltedShowsHalt, h.characterCodes⟩

/-- The store of a Word in range into a cell, from outside, keeps the invariant. -/
theorem State.Inv.setCell {s : State} (h : s.Inv) {a : Nat} (ha : a < 1000) {w : Word} (hw : w.overflow = false) :
    State.Inv { s with mem := s.mem.set a w } :=
  ⟨Memory.wf_set h.memoryCanonical ha w, Memory.inRange_set h.memoryInRange a hw, h.counterValue, h.instructionInRange,
    h.derivedRegisters, h.counterFault, h.otherEnds, h.haltedShowsHalt, h.characterCodes⟩

theorem State.Inv.of_memWrite {s t : State} {addr : Int} {w : Word}
    (h : s.Inv) (hw : memWrite addr w s = .ok t) : t.Inv := by
  obtain ⟨hb, ho, rfl⟩ := memWrite_ok_iff.1 hw
  have hb := (inBounds_iff addr).1 hb
  exact h.setCell (by omega) ho

/-- The loader keeps the invariant and changes the memory alone. -/
theorem loadCells_inv {cells : List (Int × Word)} {s t : State} (hs : s.Inv) (h : loadCells cells s = .ok t) :
    t.Inv ∧ t = { s with mem := t.mem } := by
  induction cells generalizing s with
  | nil => cases h; exact ⟨hs, rfl⟩
  | cons c cells ih =>
    obtain ⟨a, w⟩ := c
    unfold loadCells at h
    split at h
    · next u hu =>
      obtain ⟨hinv, heq⟩ := ih (hs.of_memWrite hu) h
      obtain ⟨_, _, rfl⟩ := memWrite_ok_iff.1 hu
      exact ⟨hinv, heq⟩
    · cases h

/-- The loader succeeds on a program whose addresses and Words are in range. -/
theorem loadCells_ok {cells : List (Int × Word)} (h : ∀ c ∈ cells, 0 ≤ c.1 ∧ c.1 < 1000 ∧ c.2.overflow = false)
    (s : State) : ∃ t, loadCells cells s = .ok t := by
  induction cells generalizing s with
  | nil => exact ⟨s, rfl⟩
  | cons c cells ih =>
    obtain ⟨a, w⟩ := c
    obtain ⟨h0, h1, h2⟩ := h (a, w) List.mem_cons_self
    rw [loadCells, memWrite_ok_iff.2 ⟨(inBounds_iff a).2 ⟨h0, h1⟩, h2, rfl⟩]
    exact ih (fun d hd => h d (List.mem_cons_of_mem _ hd)) _

theorem launch_inv {cells : List (Int × Word)} {tokens : List Token} {s : State} (h : launch cells tokens = .ok s) :
    s.Inv ∧ s = { State.reset with mem := s.mem, input := tokens } := by
  unfold launch at h
  split at h
  · next u hu =>
    obtain ⟨hinv, heq⟩ := loadCells_inv inv_reset hu
    cases h
    exact ⟨hinv.withInput tokens, by rw [heq]⟩
  · cases h

theorem launch_ok {cells : List (Int × Word)} (tokens : List Token)
    (h : ∀ c ∈ cells, 0 ≤ c.1 ∧ c.1 < 1000 ∧ c.2.overflow = false) : ∃ s, launch cells tokens = .ok s := by
  obtain ⟨t, ht⟩ := loadCells_ok h .reset
  exact ⟨_, by rw [launch, ht]⟩

/-- The 20 magnitude bits of a cell are in range (R62). -/
theorem overflow_ofCell (b : BitVec 21) : (Word.ofCell b).overflow = false := by
  have hip : (Word.ofCell b).ip < 2 ^ 20 := (b.extractLsb' 0 20).isLt
  rw [← Bool.not_eq_true, Word.overflow_iff]
  rintro (h | ⟨_, h⟩)
  · omega
  · cases h

theorem State.Inv.withFetchWord {s : State} (h : s.Inv) (nbits w : Nat) : (s.withFetchWord nbits w).Inv := by
  unfold State.withFetchWord
  split
  · next hb =>
    have hb := (inBounds_iff _).1 hb
    exact h.setCell (by omega) (overflow_ofCell _)
  · exact h

/-- Settles O34, one lemma for each operation of the host. -/
theorem resetAndLoadMeetTheInvariant : Obligations.ResetAndLoadMeetTheInvariant :=
  ⟨inv_reset, fun _ _ _ => loadCells_inv, fun _ _ _ => launch_inv, fun _ tokens => launch_ok tokens,
    fun s tok h => h.withInput (s.input ++ [tok]), fun _ nbits w h => h.withFetchWord nbits w⟩

end Machine
end Sys2Proof
end

section
/-! PROOFS. The overflow test as a bound on the exact value (R43, R84): the magnitude of a value is the integer part and a
fraction below one. -/

namespace Sys2Proof
namespace Word

theorem val_of_neg {w : Word} (h : w.neg = true) : w.val = -((w.ip : Rat) + fracVal w.fr) := by simp [val, h]

theorem val_of_not_neg {w : Word} (h : w.neg = false) : w.val = (w.ip : Rat) + fracVal w.fr := by simp [val, h]

/-- The fraction has a value above zero exactly when some digit of it is not zero. -/
theorem fracVal_pos_iff (w : Word) : 0 < fracVal w.fr ↔ w.fracNonzero = true := by
  rw [(fracVal_nonneg w.fr).lt_iff_ne', Ne, fracVal_eq_zero, fracNonzero, Bool.not_eq_false]

/-- The magnitude is above a natural number when the integer part is, or is that number with some fraction left. -/
theorem lt_magnitude_iff (w : Word) (n : Nat) :
    (n : Rat) < w.ip + fracVal w.fr ↔ n < w.ip ∨ (w.ip = n ∧ w.fracNonzero = true) := by
  rw [← fracVal_pos_iff]
  have hnonneg := fracVal_nonneg w.fr
  rcases lt_trichotomy n w.ip with hlt | rfl | hgt
  · have hq : (n : Rat) < w.ip := by exact_mod_cast hlt
    exact iff_of_true (by linarith) (.inl hlt)
  · simp
  · have hq : (w.ip : Rat) + 1 ≤ n := by exact_mod_cast hgt
    have hone := fracVal_lt_one w.fr
    exact iff_of_false (by linarith) (by omega)

theorem overflow_iff_magnitude (w : Word) : w.overflow = true ↔ 1048575 < (w.ip : Rat) + fracVal w.fr := by
  rw [overflow_iff]
  exact_mod_cast (lt_magnitude_iff w 0xFFFFF).symm

/-- The magnitude is not negative. -/
theorem magnitude_nonneg (w : Word) : 0 ≤ (w.ip : Rat) + fracVal w.fr :=
  add_nonneg w.ip.cast_nonneg (fracVal_nonneg w.fr)

end Word

/-- Settles O8: by the sign, the value is the magnitude or its negative, and only one of the two bounds can be passed. -/
theorem overflowTestIsTheValueBound : Obligations.OverflowTestIsTheValueBound := by
  intro w
  have hmag := w.magnitude_nonneg
  rw [Word.overflow_iff_magnitude]
  cases hneg : w.neg with
  | false =>
    rw [Word.val_of_not_neg hneg]
    exact ⟨.inl, fun h => h.resolve_right (by linarith)⟩
  | true =>
    rw [Word.val_of_neg hneg, neg_lt_neg_iff]
    exact ⟨.inr, fun h => h.resolve_left (by linarith)⟩

end Sys2Proof
end

section
/-! PROOFS. The two checked primitives on one cell, and the instructions that begin with the checked read (R41, R42,
R202). -/

namespace Sys2Proof
namespace Machine

theorem inBounds_false_iff (a : Int) : inBounds a = false ↔ a < 0 ∨ 1000 ≤ a := by
  rw [← Bool.not_eq_true, inBounds_iff]
  omega

/-- Settles O13, by the results of the checked read. -/
theorem checkedReadOfOneCell : Obligations.CheckedReadOfOneCell := by
  intro addr s
  refine ⟨fun hout => ?_, fun h0 h1 hw => ?_, fun h0 h1 hw => ?_, fun hs he => ?_⟩
  · exact memRead_error_iff.2 (.inl ⟨(inBounds_false_iff addr).2 hout, rfl⟩)
  · exact memRead_error_iff.2 (.inr ⟨(inBounds_iff addr).2 ⟨h0, h1⟩, hw, rfl⟩)
  · exact memRead_ok_iff.2 ⟨(inBounds_iff addr).2 ⟨h0, h1⟩, hw, rfl⟩
  · obtain ⟨_, hk⟩ | ⟨_, hw, _⟩ := memRead_error_iff.1 he
    · cases hk
    · rw [State.cell_eq, Memory.overflow_get hs.memoryInRange] at hw
      cases hw

/-- Settles O14, by the results of the checked write, and read after write. -/
theorem checkedWriteOfOneCell : Obligations.CheckedWriteOfOneCell := by
  intro addr w s hm
  refine ⟨fun hout => ?_, fun h0 h1 hw => ?_, fun h0 h1 hw => ?_⟩
  · exact memWrite_error_iff.2 (.inl ⟨(inBounds_false_iff addr).2 hout, rfl⟩)
  · exact memWrite_error_iff.2 (.inr ⟨(inBounds_iff addr).2 ⟨h0, h1⟩, hw, rfl⟩)
  · have ha : addr.toNat < Config.memorySize := (Int.toNat_lt h0).2 h1
    exact ⟨_, memWrite_ok_iff.2 ⟨(inBounds_iff addr).2 ⟨h0, h1⟩, hw, rfl⟩, rfl, Memory.get_set_same hm _ w,
      fun _ hb => Memory.get_set_other w hb, Memory.wf_set hm ha w⟩

theorem withCell_of_error {addr : Int} {s : State} {k : Fault} (h : memRead addr s = .error k) (f : Word → Result) :
    withCell addr s f = .next (raise k s) := by
  rw [withCell, h]

/-- `PrintString` begins with the read of the length, so its fault comes before any character. -/
theorem printString_of_error {addr : Int} {s : State} {k : Fault} (h : memRead addr s = .error k) :
    printString addr s = .error (k, s) := by
  rw [printString, h]

/-- An instruction that reads a cell is the checked read and a continuation, or it is WRITESTRING. -/
theorem exec_cellReader (s : State) {a : Nat} {i : Instr}
    (hi : i ∈ [.writeInt a, .writeString a, .writeDouble a, .load a, .addDouble a, .subtractDouble a, .divideDouble a,
      .multiplyDouble a, .remainderDouble a, .powerDouble a, .addInt a, .subtractInt a, .divideInt a, .multiplyInt a,
      .remainderInt a, .powerInt a]) :
    i = .writeString a ∨ ∃ f, exec i s = withCell a s f := by
  simp only [List.mem_cons, List.not_mem_nil, or_false] at hi
  rcases hi with rfl | rfl | rfl | rfl | rfl | rfl | rfl | rfl | rfl | rfl | rfl | rfl | rfl | rfl | rfl | rfl
  · exact .inr ⟨_, exec_writeInt a s⟩
  · exact .inl rfl
  · exact .inr ⟨_, exec_writeDouble a s⟩
  · exact .inr ⟨_, exec_load a s⟩
  · exact .inr ⟨_, exec_addDouble a s⟩
  · exact .inr ⟨_, exec_subtractDouble a s⟩
  · exact .inr ⟨_, exec_divideDouble a s⟩
  · exact .inr ⟨_, exec_multiplyDouble a s⟩
  · exact .inr ⟨_, exec_remainderDouble a s⟩
  · exact .inr ⟨_, exec_powerDouble a s⟩
  · exact .inr ⟨_, exec_addInt a s⟩
  · exact .inr ⟨_, exec_subtractInt a s⟩
  · exact .inr ⟨_, exec_divideInt a s⟩
  · exact .inr ⟨_, exec_multiplyInt a s⟩
  · exact .inr ⟨_, exec_remainderInt a s⟩
  · exact .inr ⟨_, exec_powerInt a s⟩

/-- Settles O16: whichever of the sixteen it is, the fault of the read ends it. -/
theorem cellReadersRaiseTheFaultOfTheRead : Obligations.CellReadersRaiseTheFaultOfTheRead := by
  intro s a i hi
  have hraise {k : Fault} (hk : memRead a s = .error k) : exec i s = .next (raise k s) := by
    obtain rfl | ⟨f, hf⟩ := exec_cellReader s hi
    · rw [exec_writeString, printString_of_error hk, finishTransfer]
    · rw [hf, withCell_of_error hk]
  refine ⟨fun ha => hraise ?_, fun ha hw => hraise ?_⟩
  · exact memRead_error_iff.2 (.inl ⟨(inBounds_false_iff a).2 (.inr (by omega)), rfl⟩)
  · exact memRead_error_iff.2 (.inr ⟨(inBounds_nat a).2 ha, hw, rfl⟩)

end Machine
end Sys2Proof
end

section
/-! PROOFS. Memory through whole steps: who writes it (R50, R152), and a stored Word as the next instruction (R55,
R236). -/

namespace Sys2Proof
namespace Machine

/-- The instructions that can write memory, one by one. -/
theorem eq_of_writesMemory {i : Instr} (h : writesMemory i = true) :
    ∃ a, i = .readInt a ∨ i = .readString a ∨ i = .readDouble a ∨ i = .store a := by
  cases i <;> simp [writesMemory] at h ⊢

/-- A cycle that changes the memory has dispatched one of its writers. -/
theorem CycleResult.ready_writesMemory {s t : State} (h : CycleResult s t) (ht : t.mem ≠ s.mem) :
    ∃ i, s.Ready i ∧ writesMemory i = true := by
  cases h with
  | counterOutside _ eq => exact absurd (by rw [eq, raise_mem]) ht
  | fetchFault _ eq => exact absurd (by rw [eq, raise_mem]) ht
  | checkFault _ _ _ eq => exact absurd (by rw [eq, raise_mem, State.front_mem]) ht
  | dispatched i hi hx => exact ⟨i, hi, (exec_effect hx).mem.resolve_left ht⟩

/-- Settles O28: of the results of a cycle only those of the memory's writers change it. -/
theorem onlyFourInstructionsWriteMemory : Obligations.OnlyFourInstructionsWriteMemory := by
  intro s t h hne
  obtain rfl | ⟨_, hc⟩ := cycleResult_or_eq h
  · exact absurd rfl hne
  obtain ⟨i, hi, hw⟩ := hc.ready_writesMemory hne
  obtain ⟨a, rfl | rfl | rfl | rfl⟩ := eq_of_writesMemory hw
  · exact ⟨a, .inl hi⟩
  · exact ⟨a, .inr (.inl hi)⟩
  · exact ⟨a, .inr (.inr (.inl hi))⟩
  · exact ⟨a, .inr (.inr (.inr hi))⟩

/-- The state after a step that has dispatched STORE to cell `a` (R151). -/
def State.stored (s : State) (a : Nat) : State :=
  advance { s.front with mem := s.mem.set a s.acc, acc := .zero }

@[simp] theorem State.stored_run (s : State) (a : Nat) : (s.stored a).run = s.run := rfl
@[simp] theorem State.stored_acc (s : State) (a : Nat) : (s.stored a).acc = .zero := rfl
@[simp] theorem State.stored_ic (s : State) (a : Nat) : (s.stored a).ic = .fromInt (s.ic.toInt + 1) := rfl

theorem State.stored_cell_same {s : State} (hm : s.mem.wf = true) (a : Nat) : (s.stored a).cell a = s.acc :=
  Memory.get_set_same hm a s.acc

/-- A dispatched STORE is never cut: step 5 has checked its operand and step 4 the accumulator. -/
theorem step_store {s : State} {a : Nat} (h : s.Ready (.store a)) : step s = .next (s.stored a) := by
  have ha : a < 1000 := h.operand rfl
  have hw : s.front.acc.overflow = false := h.accumulator
  rw [step_ready h, exec_store, withStore_cell _ ha hw]
  rfl

/-- After a STORE into the cell behind it the next cycle dispatches the stored instruction. -/
theorem State.Ready.stored {s : State} {i : Instr} (h : s.Ready (.store (s.ic.toInt + 1).toNat))
    (hm : s.mem.wf = true) (hic : s.ic.toInt + 1 < 1000) (hd : decode s.acc = .ok i)
    (ho : i.needsAddress = true → i.operand < 1000) : (s.stored (s.ic.toInt + 1).toNat).Ready i where
  running := h.running
  counter := by
    obtain ⟨h0, _⟩ := h.counter
    rw [State.stored_ic, Word.toInt_fromInt]
    omega
  fetchable := by
    rw [State.stored_ic, Word.toInt_fromInt, State.stored_cell_same hm]
    exact h.accumulator
  accumulator := rfl
  decoded := by rwa [State.stored_ic, Word.toInt_fromInt, State.stored_cell_same hm]
  operand := ho

/-- Settles O37: the cell that the next cycle fetches from is the one that STORE has written. -/
theorem storedWordIsTheNextInstruction : Obligations.StoredWordIsTheNextInstruction := by
  intro s i hm hic hs hd ho
  refine ⟨_, step_store hs, hs.running, rfl, ?_⟩
  rw [step_ready (hs.stored hm hic hd ho), State.front_record, State.stored_ic, Word.toInt_fromInt,
    State.stored_cell_same hm]

end Machine
end Sys2Proof
end

section
/-! PROOFS. The encoding (30_encoding.md): the opcode map has different numbers for different mnemonics, the decoder on a
Word of the form `sOOAAA`, and the 21 bits of a cell. -/

namespace Sys2Proof

/-- An opcode map that lists no number twice gives different mnemonics different numbers. -/
theorem injective_of_nodup_numbers {num : Mnemonic → Nat} (h : (Mnemonic.all.map num).Nodup) : Function.Injective num :=
  fun a b hab => List.inj_on_of_nodup_map h a.mem_all b.mem_all hab

theorem opcodeNumber_injective : Function.Injective opcodeNumber := injective_of_nodup_numbers (by decide)

theorem opcodeNumberDecimal_injective : Function.Injective opcodeNumberDecimal := injective_of_nodup_numbers (by decide)

theorem opcodeNumber_range (m : Mnemonic) : 0x10 ≤ opcodeNumber m ∧ opcodeNumber m ≤ 0x43 := by cases m <;> decide

theorem Instr.wellFormed_iff (i : Instr) : i.wellFormed = true ↔ i.operand < 0x1000 := decide_eq_true_iff

theorem Word.toInt_of_neg_false {w : Word} (h : w.neg = false) : w.toInt = w.ip := by simp [Word.toInt, h]

/-- A Word whose integer value is `num m * 0x1000 + t` decodes to the instruction of `m` with operand `t` (R63, R64). -/
theorem decodeWith_of_value {num : Mnemonic → Nat} (hnum : Function.Injective num) {w : Word} {m : Mnemonic} {t : Nat}
    (hw : w.toInt = ((num m * 0x1000 + t : Nat) : Int)) (ht : t < 0x1000) :
    decodeWith num w = .ok (.ofMnemonic m t) := by
  obtain ⟨hc, ho⟩ := fields_of_value hw ht
  have hpos : ¬ (t : Int) < 0 := by omega
  simp only [decodeWith, decodeFieldsWith, hc, ho, mnemonicOf_number hnum, if_neg hpos, Int.toNat_natCast]

theorem toInt_encodeWith (num : Mnemonic → Nat) (i : Instr) :
    (encodeWith num i).toInt = ((num i.mnemonic * 0x1000 + i.operand : Nat) : Int) :=
  Word.toInt_of_neg_false rfl

/-- Decoding undoes encoding under every opcode map with different numbers (R61, R63, R64). -/
theorem decodeWith_encodeWith {num : Mnemonic → Nat} (hnum : Function.Injective num) {i : Instr}
    (hi : i.wellFormed = true) : decodeWith num (encodeWith num i) = .ok i := by
  rw [decodeWith_of_value hnum (toInt_encodeWith num i) (i.wellFormed_iff.1 hi), Instr.ofMnemonic_mnemonic]

theorem decode_encode {i : Instr} (hi : i.wellFormed = true) : decode (encode i) = .ok i :=
  decodeWith_encodeWith opcodeNumber_injective hi

/-- The 21 bits of a cell hold a Word without fraction whose magnitude has 20 bits (R62). -/
theorem Word.ofCell_toCell {w : Word} (hip : w.ip < 2 ^ 20) (hfr : w.fr = []) : Word.ofCell w.toCell = w := by
  obtain ⟨neg, ip, fr⟩ := w
  subst hfr
  have hneg : (Word.toCell ⟨neg, ip, []⟩).getLsbD 20 = neg := by
    rw [Word.toCell, BitVec.getLsbD_append]
    simp
  have hmag : ((Word.toCell ⟨neg, ip, []⟩).extractLsb' 0 20).toNat = ip := by
    rw [Word.toCell, BitVec.extractLsb'_append_eq_right, BitVec.toNat_ofNat, Nat.mod_eq_of_lt hip]
  rw [Word.ofCell, hneg, hmag]

/-- The largest encoding is `43FFF`, so every one fits the magnitude of a cell. -/
theorem ip_encode_lt {i : Instr} (hi : i.wellFormed = true) : (encode i).ip < 2 ^ 20 := by
  have hop := i.wellFormed_iff.1 hi
  obtain ⟨_, hc⟩ := opcodeNumber_range i.mnemonic
  show opcodeNumber i.mnemonic * 0x1000 + i.operand < 2 ^ 20
  omega

theorem ofCell_toCell_encode {i : Instr} (hi : i.wellFormed = true) : Word.ofCell (encode i).toCell = encode i :=
  Word.ofCell_toCell (ip_encode_lt hi) rfl

/-- The table decoder is the decoder on the 21 bits of a cell. -/
theorem decodeTableWord_toNat {n : Nat} {b : BitVec 21} {i : Instr} (h : decode (Word.ofCell b) = .ok i) :
    decodeTableWord n b.toNat = some i := by
  rw [decodeTableWord, BitVec.ofNat_toNat, BitVec.setWidth_eq, h]

/-- Settles O1, by the decoder on a Word whose two fields are known, and the cell's layout. -/
theorem decodeOfEncodeGivesTheInstruction : Obligations.DecodeOfEncodeGivesTheInstruction := by
  refine ⟨fun i hi => ?_, fun num hnum i hi => decodeWith_encodeWith hnum hi, opcodeNumber_injective,
    opcodeNumberDecimal_injective⟩
  have hcell := ofCell_toCell_encode hi
  exact ⟨decode_encode hi, hcell, decodeTableWord_toNat (by rw [hcell, decode_encode hi])⟩

end Sys2Proof
end

section
/-! PROOFS. Which Words are instructions (R65): what a Word that decodes looks like, and the opcode values in use. -/

namespace Sys2Proof

/-- The integer part of a Word that decodes is made of the opcode number and the operand (R61, R63). -/
theorem ip_of_decode {w : Word} {i : Instr} (h : decode w = .ok i) :
    w.ip = opcodeNumber i.mnemonic * 0x1000 + i.operand := by
  obtain ⟨hc, ht⟩ := decode_ok h
  have hip := Word.ip_of_nonneg (operand_lt_of_decode h).1
  have hdiv := Int.mul_tdiv_add_tmod w.toInt 4096
  rw [← opcodeField_eq, ← operandField_eq, ← hc, ← ht] at hdiv
  omega

/-- A Word that decodes has the sign `+`: its value is positive. -/
theorem neg_of_decode {w : Word} {i : Instr} (h : decode w = .ok i) : w.neg = false := by
  have hip := ip_of_decode h
  obtain ⟨hc, _⟩ := opcodeNumber_range i.mnemonic
  obtain ⟨hpos, _⟩ := operand_lt_of_decode h
  by_contra hneg
  rw [Word.toInt, if_pos (by simpa using hneg)] at hpos
  omega

/-- Settles O2: the sign and the integer part of a Word that decodes are those of the encoding. -/
theorem encodeOfDecodeGivesTheWord : Obligations.EncodeOfDecodeGivesTheWord := by
  intro w i h
  refine ⟨i.wellFormed_iff.2 (operand_lt_of_decode h).2, ?_⟩
  rw [neg_of_decode h, ip_of_decode h]
  rfl

/-- The Words that are instructions: not negative, and the opcode value is a number of the opcode map. -/
theorem decode_isOk_iff (w : Word) :
    (∃ i, decode w = .ok i) ↔ 0 ≤ w.toInt ∧ ∃ m, opcodeNumber m = w.ip / 0x1000 := by
  constructor
  · rintro ⟨i, h⟩
    obtain ⟨hpos, hop⟩ := operand_lt_of_decode h
    have hip := ip_of_decode h
    exact ⟨hpos, i.mnemonic, by omega⟩
  · rintro ⟨hpos, m, hm⟩
    have hw : w.toInt = ((opcodeNumber m * 0x1000 + w.ip % 0x1000 : Nat) : Int) := by
      rw [← Word.ip_of_nonneg hpos]
      omega
    exact ⟨_, decodeWith_of_value opcodeNumber_injective hw (Nat.mod_lt _ (by decide))⟩

theorem decode_isError_iff (w : Word) :
    (∃ r, decode w = .error r) ↔ w.toInt < 0 ∨ ∀ m, opcodeNumber m ≠ w.ip / 0x1000 := by
  have hor : (∃ r, decode w = .error r) ↔ ¬ ∃ i, decode w = .ok i := by cases decode w <;> simp
  rw [hor, decode_isOk_iff, not_and_or, not_le, not_exists]

theorem opcodeNumber_ne_iff_not_mem (c : Nat) :
    (∀ m, opcodeNumber m ≠ c) ↔ c ∉ Mnemonic.all.map opcodeNumber := by
  simp [Mnemonic.mem_all]

/-- The unused opcode values, by their ranges (R65). -/
theorem opcodeNumber_ne_iff (c : Nat) :
    (∀ m, opcodeNumber m ≠ c) ↔ c ≤ 0x0F ∨ (0x17 ≤ c ∧ c ≤ 0x1F) ∨ c = 0x22 ∨ c = 0x23 ∨ (0x2A ≤ c ∧ c ≤ 0x2F) ∨
      (0x36 ≤ c ∧ c ≤ 0x3F) ∨ 0x44 ≤ c := by
  rw [opcodeNumber_ne_iff_not_mem]
  simp only [Mnemonic.all, List.map_cons, List.map_nil, opcodeNumber, List.mem_cons, List.not_mem_nil, or_false]
  omega

/-- A positive Word with opcode value `c` and operand 0 decodes exactly when the opcode map lists `c`. -/
theorem isNone_decode_opcode (c : Nat) :
    (decode ⟨false, c * 0x1000, []⟩).toOption.isNone = !decide (c ∈ Mnemonic.all.map opcodeNumber) := by
  have herr := decode_isError_iff ⟨false, c * 0x1000, []⟩
  have hpos : ¬ (Word.mk false (c * 0x1000) []).toInt < 0 := by rw [Word.toInt_of_neg_false rfl]; omega
  simp only [hpos, false_or, Nat.mul_div_cancel c (show 0 < 0x1000 by decide), opcodeNumber_ne_iff_not_mem] at herr
  rw [← decide_not, Bool.eq_iff_iff, decide_eq_true_iff, ← herr]
  cases decode ⟨false, c * 0x1000, []⟩ <;> simp [Except.toOption]

/-- A list without repetition of values below `n` picks out as many of them as it is long. -/
theorem length_filter_mem_range {n : Nat} {l : List Nat} (hl : l.Nodup) (hn : ∀ c ∈ l, c < n) :
    ((List.range n).filter (fun c => decide (c ∈ l))).length = l.length := by
  refine ((List.perm_ext_iff_of_nodup (List.nodup_range.filter _) hl).2 fun c => ?_).length_eq
  simpa using hn c

/-- Of the 256 values of the opcode field the 25 numbers of the map are in use, which leaves 231 (R65). -/
theorem count_unused_opcodes :
    ((List.range 256).filter (fun c => (decode ⟨false, c * 0x1000, []⟩).toOption.isNone)).length = 231 := by
  have hused := length_filter_mem_range (n := 256) (l := Mnemonic.all.map opcodeNumber) (by decide) (by decide)
  have hsum := List.length_eq_length_filter_add (l := List.range 256)
    (fun c => decide (c ∈ Mnemonic.all.map opcodeNumber))
  rw [hused, List.length_range, List.length_map, show Mnemonic.all.length = 25 from rfl] at hsum
  simp only [isNone_decode_opcode]
  omega

/-- Settles O3: a Word is no instruction when it is negative or its opcode value is no number of the map. -/
theorem rejectsExactlyTheUnusedOpcodes : Obligations.RejectsExactlyTheUnusedOpcodes := by
  refine ⟨fun w => ?_, count_unused_opcodes, _, rfl⟩
  rw [decode_isError_iff, opcodeNumber_ne_iff]

/-- Settles O4, by evaluation of the decoder. -/
theorem wordsOfTheTableDecodeToTheirInstructions : Obligations.WordsOfTheTableDecodeToTheirInstructions := by
  unfold Obligations.WordsOfTheTableDecodeToTheirInstructions
  decide

end Sys2Proof
end

section
/-! PROOFS. The text of a Word (R80, R81, R85, R88): the width of the fixed-width text, and what the lenient parser
answers for a literal and for every other text. -/

namespace Sys2Proof
namespace Word

/-- The fixed-width text has the sign, the fill of zero digits and the natural text after its sign (R85). -/
theorem length_getString (w : Word) (n : Nat) : (w.getString n).length = max n (w.textBody.length + 1) := by
  simp only [getString, List.length_cons, List.length_append, List.length_replicate]
  omega

/-- No zero digit is put into a text that has the width already (R85). -/
theorem getString_of_le {w : Word} {n : Nat} (h : n ≤ w.textBody.length + 1) :
    w.getString n = w.signChar :: w.textBody := by
  rw [getString, Nat.sub_eq_zero_of_le h, List.replicate_zero, List.nil_append]

/-- A sign and a text whose digits parse are the Word of these digits (R81). -/
theorem parseWord_of_parseBody {c : Char} {body : Text} {i f : List HexDigit} (hc : c = '+' ∨ c = '-')
    (h : parseBody body = some (i, f)) : parseWord (c :: body) = ⟨decide (c = '-'), ofDigits i, f⟩ := by
  simp only [parseWord, if_pos hc, h]

/-- The parser answers `ZERO` unless the text is a sign and a text whose digits parse (R81). -/
theorem parseWord_cases (t : Text) :
    parseWord t = zero ∨
      ∃ c body i f, t = c :: body ∧ (c = '+' ∨ c = '-') ∧ parseBody body = some (i, f) := by
  cases t with
  | nil => exact .inl rfl
  | cons c body =>
    by_cases hc : c = '+' ∨ c = '-'
    · cases h : parseBody body with
      | none => simp only [parseWord, if_pos hc, h, true_or]
      | some p => exact .inr ⟨c, body, p.1, p.2, rfl, hc, h⟩
    · exact .inl (if_neg hc)

end Word

/-- Settles O5, by the codec's two inverses. -/
theorem decodingTheEncodingOfAnInteger : Obligations.DecodingTheEncodingOfAnInteger :=
  ⟨Word.toInt_fromInt, fun n _ => by rw [Word.parseWord_getString, Word.toInt_fromInt]⟩

/-- Settles O6: the natural text is the one asked for with width 0. -/
theorem fixedWidthTextKeepsTheWord : Obligations.FixedWidthTextKeepsTheWord := by
  intro w n
  have hnatural : (w.getString 0).length = w.textBody.length + 1 := by rw [Word.length_getString, Nat.zero_max]
  refine ⟨?_, fun h => ?_, rfl, w.parseWord_getString n⟩
  · rw [hnatural, Word.length_getString]
  · rw [Word.getString_of_le (hnatural ▸ h), Word.getString_of_le (Nat.zero_le _)]

/-- Settles O7: a text that parses is a literal, so every other text gives `ZERO`. -/
theorem lenientParserReadsLiteralsAndZeroesTheRest : Obligations.LenientParserReadsLiteralsAndZeroesTheRest := by
  refine ⟨⟨rfl, Word.ofDigits_snoc⟩, fun c i f hc => ⟨?_, ?_⟩, fun t ht => ?_⟩
  · exact Word.parseWord_of_parseBody hc (Word.parseBody_integer i)
  · exact Word.parseWord_of_parseBody hc (Word.parseBody_fraction i f)
  · obtain h | ⟨c, body, i, f, rfl, hc, hbody⟩ := Word.parseWord_cases t
    · exact h
    · obtain ⟨hint, hfrac⟩ := ht c i f hc
      obtain rfl | rfl := Word.parseBody_cases hbody
      · exact absurd rfl hint
      · exact absurd rfl hfrac

end Sys2Proof
end

section
/-! PROOFS. The zero test, the sign test and the comparison of Words (R84, R86, R186, R187): all are on the exact value. -/

namespace Sys2Proof
namespace Word

/-- The magnitude is above zero exactly when the zero test fails. -/
theorem magnitude_pos_iff (w : Word) : 0 < (w.ip : Rat) + fracVal w.fr ↔ w.isZero = false := by
  have hpos : 0 < (w.ip : Rat) + fracVal w.fr ↔ 0 < w.ip ∨ (w.ip = 0 ∧ w.fracNonzero = true) := by
    exact_mod_cast w.lt_magnitude_iff 0
  rw [hpos, ← Bool.not_eq_true, isZero_iff, not_and, Bool.not_eq_false]
  rcases Nat.eq_zero_or_pos w.ip with hip | hip
  · simp [hip]
  · simp [hip, hip.ne']

theorem isZero_iff_val (w : Word) : w.isZero = true ↔ w.val = 0 := by
  have hmag : w.isZero = true ↔ (w.ip : Rat) + fracVal w.fr = 0 := by
    rw [← Bool.not_eq_false, ← magnitude_pos_iff, w.magnitude_nonneg.lt_iff_ne', not_not]
  cases hneg : w.neg with
  | false => rw [val_of_not_neg hneg, hmag]
  | true => rw [val_of_neg hneg, neg_eq_zero, hmag]

theorem isNegative_iff_val (w : Word) : w.isNegative = true ↔ w.val < 0 := by
  rw [isNegative_iff, ← magnitude_pos_iff]
  cases hneg : w.neg with
  | false => simpa [val_of_not_neg hneg] using w.magnitude_nonneg
  | true => rw [val_of_neg hneg, neg_lt_zero, and_iff_right rfl]

/-- The exact value of a Word without fraction is its integer (R84). -/
theorem val_eq_toInt {w : Word} (h : w.fr = []) : w.val = (w.toInt : Rat) := by
  cases hneg : w.neg with
  | false => simp [val_of_not_neg hneg, toInt, hneg, h, fracVal]
  | true => simp [val_of_neg hneg, toInt, hneg, h, fracVal]

@[simp] theorem val_zero : zero.val = 0 := val_eq_toInt rfl

theorem compareTo_eq_compare (a b : Word) : a.compareTo b = compare a.val b.val :=
  (LinearOrder.compare_eq_compareOfLessAndEq a.val b.val).symm

theorem compareTo_lt_iff (a b : Word) : a.compareTo b = .lt ↔ a.val < b.val := by
  rw [compareTo_eq_compare, compare_lt_iff_lt]

theorem compareTo_eq_iff (a b : Word) : a.compareTo b = .eq ↔ a.val = b.val := by
  rw [compareTo_eq_compare, compare_eq_iff_eq]

theorem compareTo_gt_iff (a b : Word) : a.compareTo b = .gt ↔ b.val < a.val := by
  rw [compareTo_eq_compare, compare_gt_iff_gt]

theorem equals_iff (a b : Word) : a.equals b = true ↔ a.val = b.val := decide_eq_true_iff

/-- A zero digit after the fraction adds nothing to its value (R84). -/
theorem fracVal_append_zero (ds : List HexDigit) : fracVal (ds ++ [0]) = fracVal ds := by
  induction ds with
  | nil => simp [fracVal]
  | cons d ds ih => rw [List.cons_append, fracVal, fracVal, ih]

theorem val_append_zero (w : Word) : val { w with fr := w.fr ++ [0] } = w.val := by
  simp only [val, fracVal_append_zero]

/-- The zero test does not look at the sign, so both signs of a zero have the value 0. -/
theorem val_flip_of_isZero {w : Word} (h : w.isZero = true) : val { w with neg := !w.neg } = w.val := by
  rw [(isZero_iff_val w).1 h, ← isZero_iff_val]
  exact h

/-- Overflow is a comparison with `MAX_WORD` and `MIN_WORD` (R43). -/
theorem overflow_iff_compareTo (w : Word) :
    w.overflow = true ↔ w.compareTo ⟨false, 0xFFFFF, []⟩ = .gt ∨ w.compareTo ⟨true, 0xFFFFF, []⟩ = .lt := by
  have hmax : val ⟨false, 0xFFFFF, []⟩ = 1048575 := val_eq_toInt rfl
  have hmin : val ⟨true, 0xFFFFF, []⟩ = -1048575 := val_eq_toInt rfl
  rw [compareTo_gt_iff, compareTo_lt_iff, hmax, hmin]
  exact overflowTestIsTheValueBound w

end Word

/-- Settles O9: the value is the magnitude or its negative, and the magnitude is 0 exactly when the zero test holds. -/
theorem zeroAndSignTestsAreOnTheExactValue : Obligations.ZeroAndSignTestsAreOnTheExactValue :=
  fun w => ⟨w.isZero_iff_val, w.isNegative_iff_val, Word.val_eq_toInt⟩

/-- Settles O60: the comparison is the library's on the exact values, and each test is a bound on the exact value. -/
theorem wordsCompareByTheirExactValue : Obligations.WordsCompareByTheirExactValue := by
  refine ⟨fun a b => ⟨a.compareTo_lt_iff b, a.compareTo_eq_iff b, a.compareTo_gt_iff b, ?_, fun ha hb => ?_⟩,
    fun w n => ?_, fun w => ?_, fun w hw => ?_, fun w => ⟨?_, ?_, w.overflow_iff_compareTo⟩⟩
  · rw [Word.equals_iff, Word.compareTo_eq_iff]
  · rw [Word.compareTo_lt_iff, Word.val_eq_toInt ha, Word.val_eq_toInt hb, Int.cast_lt]
  · rw [Word.parseWord_getString, Word.equals_iff]
  · rw [Word.equals_iff, Word.val_append_zero]
  · rw [Word.equals_iff, Word.val_flip_of_isZero hw]
  · rw [Word.compareTo_lt_iff, Word.val_zero, Word.isNegative_iff_val]
  · rw [Word.equals_iff, Word.val_zero, Word.isZero_iff_val]

end Sys2Proof
end

section
/-! PROOFS. The integer-mode ALU (R91 to R96): the ranges and the sign of sum, difference and product, the truncated
division, and the power. -/

namespace Sys2Proof
namespace Word

theorem natAbs_toInt_le_of_overflow {w : Word} (h : w.overflow = false) : w.toInt.natAbs ≤ 0xFFFFF :=
  w.natAbs_toInt ▸ ip_le_of_overflow h

/-- The sign character of a Word whose integer is not zero is the sign of that integer. -/
theorem neg_eq_of_toInt_ne_zero {w : Word} (h : w.toInt ≠ 0) : w.neg = decide (w.toInt < 0) := by
  cases hneg : w.neg <;> simp only [toInt, hneg, if_true, Bool.false_eq_true, if_false] at h ⊢
  · exact (decide_eq_false (by omega)).symm
  · exact (decide_eq_true (by omega)).symm

end Word

namespace Machine

/-- A product is negative exactly when the signs of its factors differ (R93). -/
theorem decide_mul_neg {x y : Int} (hx : x ≠ 0) (hy : y ≠ 0) :
    decide (x * y < 0) = (decide (x < 0) != decide (y < 0)) := by
  have hiff : x * y < 0 ↔ ¬(x < 0 ↔ y < 0) := by
    rw [mul_neg_iff]
    omega
  rw [Bool.eq_iff_iff, decide_eq_true_iff, hiff, bne_iff_ne, Ne, decide_eq_decide]

/-- The truncated remainder has the sign of the dividend or is zero (R95). -/
theorem tmod_mul_self_nonneg (x y : Int) : 0 ≤ x.tmod y * x := by
  rcases le_total 0 x with hx | hx
  · exact mul_nonneg (Int.tmod_nonneg y hx) hx
  · have hneg := Int.tmod_nonneg y (neg_nonneg.2 hx)
    rw [Int.neg_tmod, neg_nonneg] at hneg
    exact mul_nonneg_of_nonpos_of_nonpos hneg hx

theorem natAbs_tmod_lt (x : Int) {y : Int} (hy : y ≠ 0) : (x.tmod y).natAbs < y.natAbs := by
  rw [Int.natAbs_tmod]
  exact Nat.mod_lt _ (Int.natAbs_pos.2 hy)

theorem intArith_exponent (a b : Word) : intArith .exponent a b = .fromInt (intPower a.toInt b.toInt) := rfl

theorem intPower_of_nonneg (x : Int) {y : Int} (hy : 0 ≤ y) : intPower x y = x ^ y.toNat := if_pos hy

theorem intPower_one_of_neg {y : Int} (hy : y < 0) : intPower 1 y = 1 := by
  rw [intPower, if_neg hy.not_ge, if_pos rfl]

theorem intPower_neg_one_of_neg {y : Int} (hy : y < 0) : intPower (-1) y = if y % 2 = 0 then 1 else -1 := by
  rw [intPower, if_neg hy.not_ge, if_neg (by decide), if_pos rfl]

theorem intPower_of_two_le_natAbs {x y : Int} (hx : 2 ≤ x.natAbs) (hy : y < 0) : intPower x y = 0 := by
  rw [intPower, if_neg hy.not_ge, if_neg (by omega), if_neg (by omega)]

/-- A divisor of magnitude above 1 leaves nothing of 1. -/
theorem one_tdiv_pow_of_two_le_natAbs {x : Int} {n : Nat} (hx : 2 ≤ x.natAbs) (hn : n ≠ 0) :
    Int.tdiv 1 (x ^ n) = 0 := by
  rw [← Int.natAbs_eq_zero, Int.natAbs_tdiv, Int.natAbs_pow]
  exact Nat.div_eq_of_lt (Nat.one_lt_pow hn hx)

/-- The power of -1 is its own inverse. -/
theorem one_tdiv_neg_one_pow (n : Nat) : Int.tdiv 1 ((-1) ^ n) = (-1) ^ n := by
  rcases neg_one_pow_eq_or Int n with h | h <;> rw [h] <;> rfl

/-- A negative power of a base other than 0 is the exact rational truncated toward zero: 1 and -1 are their own
inverses, and every other base leaves 0 (R96). -/
theorem intPower_of_neg {x y : Int} (hx : x ≠ 0) (hy : y < 0) :
    intPower x y = Int.tdiv 1 (x ^ (-y).toNat) := by
  obtain rfl | rfl | hx2 : x = 1 ∨ x = -1 ∨ 2 ≤ x.natAbs := by omega
  · rw [intPower_one_of_neg hy, one_pow, Int.tdiv_one]
  · rw [intPower_neg_one_of_neg hy, one_tdiv_neg_one_pow]
    split
    · next hpar => exact (Even.neg_one_pow (Nat.even_iff.2 (by omega))).symm
    · next hpar => exact (Odd.neg_one_pow (Nat.odd_iff.2 (by omega))).symm
  · rw [intPower_of_two_le_natAbs hx2 hy, one_tdiv_pow_of_two_le_natAbs hx2 (by omega)]

/-- Settles O10: the results are exact by definition, the ranges are those of the magnitudes, and the sign is that of a
product in `Z`. -/
theorem sumDifferenceAndProductAreExact : Obligations.SumDifferenceAndProductAreExact := by
  refine fun a b => ⟨rfl, rfl, rfl, fun ha hb => ?_, fun ha hb => ?_, fun h => ?_, rfl⟩
  · have hx := Word.natAbs_toInt_le_of_overflow ha
    have hy := Word.natAbs_toInt_le_of_overflow hb
    refine ⟨by omega, by omega, ?_⟩
    rw [Int.natAbs_mul]
    exact Nat.mul_le_mul hx hy
  · rw [Word.neg_eq_of_toInt_ne_zero ha, Word.neg_eq_of_toInt_ne_zero hb]
    exact decide_mul_neg ha hb
  · rw [← Word.fromInt_zero, ← mul_eq_zero.2 h]
    rfl

/-- Settles O11: the quotient and the remainder are those of the library's truncated division. -/
theorem quotientTruncatesAndRemainderFollowsDividend : Obligations.QuotientTruncatesAndRemainderFollowsDividend :=
  fun a b hb => ⟨a.toInt.tdiv b.toInt, a.toInt.tmod b.toInt, rfl, rfl, (Int.mul_tdiv_add_tmod _ _).symm,
    natAbs_tmod_lt _ hb, tmod_mul_self_nonneg _ _, Int.natAbs_tdiv_le_natAbs _ _⟩

/-- Settles O12, one equation of the power for each corner. -/
theorem integerPowerAtEveryStatedCorner : Obligations.IntegerPowerAtEveryStatedCorner := by
  intro a b
  rw [intArith_exponent]
  refine ⟨fun hb => ?_, fun hb ha => ?_, fun hb ha => ?_, fun hb ha => ?_, fun hb ha => ?_⟩
  · rw [intPower_of_nonneg _ hb]
  · rw [intPower_of_neg ha hb]
  · rw [ha, intPower_one_of_neg hb]
  · rw [ha, intPower_neg_one_of_neg hb]
  · rw [intPower_of_two_le_natAbs ha hb, Word.fromInt_zero]

end Machine
end Sys2Proof
end

section
/-! PROOFS. Steps 1 to 5 of the cycle (R111 to R115, R118): what each of them ends the step in, one lemma for each fault,
and what a step that passes them dispatches. -/

namespace Sys2Proof
namespace Machine

/-- A fault of steps 1 and 2 ends the step with nothing written. -/
theorem step_of_fetch_error {s : State} {k : Fault} (hrun : s.run = .running) (hf : fetch s = .error k) :
    step s = .next (raise k s) := by
  simp only [step, hrun, cycle, hf]

theorem fetch_of_counterOutside {s : State} (hb : inBounds s.ic.toInt = false) :
    fetch s = .error .programCounterOutOfBounds := by
  simp [fetch, hb]

theorem fetch_of_overflow {s : State} (hb : inBounds s.ic.toInt = true)
    (hw : (s.cell s.ic.toInt.toNat).overflow = true) : fetch s = .error .wordOverflow := by
  rw [fetch, if_pos hb, memRead_error_iff.2 (.inr ⟨hb, hw, rfl⟩)]

theorem checkAndSelect_of_overflow {s : State} (ha : s.acc.overflow = true) :
    checkAndSelect s.front = .error .wordOverflow :=
  if_pos ha

/-- A Word that is no instruction: the look-up comes before the operand's check (R118). -/
theorem checkAndSelect_of_reject {s : State} {r : Reject} (ha : s.acc.overflow = false)
    (hd : decode (s.cell s.ic.toInt.toNat) = .error r) : checkAndSelect s.front = .error .invalidOpcode := by
  simp only [checkAndSelect, State.front_acc, ha, Bool.false_eq_true, if_false, State.front_opc, State.front_opd,
    decodeFields_fromInt, hd]

theorem checkAndSelect_of_operandOutside {s : State} {i : Instr} (ha : s.acc.overflow = false)
    (hd : decode (s.cell s.ic.toInt.toNat) = .ok i) (hi : i.needsAddress = true) (ho : 1000 ≤ i.operand) :
    checkAndSelect s.front = .error .addressOutOfBounds := by
  have hok : ¬ operandOk i = true := by
    rw [operandOk_iff]
    exact fun h => absurd (h hi) (by omega)
  simp only [checkAndSelect, State.front_acc, ha, Bool.false_eq_true, if_false, State.front_opc, State.front_opd,
    decodeFields_fromInt, hd, if_neg hok]

/-- The state a fault of steps 4 to 6 leaves, written out: `IR`, `OPC` and `OPD` are this instruction's. -/
theorem raise_front_record (k : Fault) (s : State) : raise k s.front =
    { s with
      ir := s.cell s.ic.toInt.toNat
      opc := .fromInt ((s.cell s.ic.toInt.toNat).toInt.tdiv 0x1000)
      opd := .fromInt ((s.cell s.ic.toInt.toNat).toInt.tmod 0x1000)
      run := .faulted k } := rfl

section
variable {s : State} (hrun : s.run = .running) (h0 : 0 ≤ s.ic.toInt) (h1 : s.ic.toInt < 1000)
  (hw : (s.cell s.ic.toInt.toNat).overflow = false)
include hrun h0 h1 hw

/-- A fault of steps 4 to 6 ends the step in the state that steps 1 to 3 leave. -/
theorem step_of_check_error {k : Fault} (hc : checkAndSelect s.front = .error k) :
    step s = .next (raise k s.front) := by
  rw [step_of_fetch hrun ((inBounds_iff _).2 ⟨h0, h1⟩) hw, hc]

/-- No step after the third writes `IR`, `OPC` or `OPD`. -/
theorem front_registers_of_step {t : State} (h : step s = .next t) :
    t.ir = s.front.ir ∧ t.opc = s.front.opc ∧ t.opd = s.front.opd := by
  rw [step_of_fetch hrun ((inBounds_iff _).2 ⟨h0, h1⟩) hw] at h
  cases hc : checkAndSelect s.front with
  | error k =>
    rw [hc] at h
    cases h
    exact ⟨rfl, rfl, rfl⟩
  | ok i =>
    rw [hc] at h
    have he := exec_effect h
    exact ⟨he.ir, he.opc, he.opd⟩

end

/-- Settles O19: the fetch is the checked read of the cell `IC` names, and no later step writes `IR`. -/
theorem stepTwoFetchesTheCellTheCounterNames : Obligations.StepTwoFetchesTheCellTheCounterNames := by
  intro s hrun h0 h1
  have hb := (inBounds_iff s.ic.toInt).2 ⟨h0, h1⟩
  refine ⟨fun he => ?_, fun hw => ⟨memRead_ok_iff.2 ⟨hb, hw, rfl⟩, fun t ht => ?_⟩, fun hw => ?_, fun hs => ?_⟩
  · obtain ⟨hout, _⟩ | ⟨_, _, hk⟩ := memRead_error_iff.1 he
    · rw [hb] at hout
      cases hout
    · cases hk
  · exact (front_registers_of_step hrun h0 h1 hw ht).1
  · exact step_of_fetch_error hrun (fetch_of_overflow hb hw)
  · exact Memory.overflow_get hs.memoryInRange _

/-- Settles O20: step 3 writes the two fields of the fetched Word, and no later step writes them. -/
theorem stepThreeWritesTheDerivedRegisters : Obligations.StepThreeWritesTheDerivedRegisters :=
  fun _ _ hrun h0 h1 hw ht => (front_registers_of_step hrun h0 h1 hw ht).2

/-- Settles O21: step 4 stands before the look-up, so what the Word decodes to plays no part. -/
theorem stepFourChecksTheAccumulator : Obligations.StepFourChecksTheAccumulator := by
  intro s hrun h0 h1 w hw ha
  rw [step_of_check_error hrun h0 h1 hw (checkAndSelect_of_overflow ha), raise_front_record]

/-! ### The opcodes whose operand step 5 checks -/

/-- Whether an instruction needs an address does not depend on its operand. -/
theorem needsAddress_ofMnemonic (m : Mnemonic) (t : Nat) :
    (Instr.ofMnemonic m t).needsAddress = (Instr.ofMnemonic m 0).needsAddress := by cases m <;> rfl

theorem operand_ofMnemonic (m : Mnemonic) (t : Nat) : (Instr.ofMnemonic m t).operand = t := by cases m <;> rfl

/-- The mnemonics whose instructions need an address, or those whose instructions need none. -/
def addressMnemonics (needed : Bool) : List Mnemonic :=
  Mnemonic.all.filter fun m => (Instr.ofMnemonic m 0).needsAddress == needed

theorem needsAddress_of_mem {m : Mnemonic} {needed : Bool} (h : m ∈ addressMnemonics needed) (t : Nat) :
    (Instr.ofMnemonic m t).needsAddress = needed := by
  rw [needsAddress_ofMnemonic]
  exact eq_of_beq (List.mem_filter.1 h).2

/-- The 20 opcodes that access `M[operand]` (R115). -/
theorem opcodes_needing_an_address : (addressMnemonics true).map opcodeNumber =
    [0x10, 0x11, 0x13, 0x14, 0x15, 0x16, 0x20, 0x21, 0x24, 0x25, 0x26, 0x27, 0x28, 0x29,
      0x30, 0x31, 0x32, 0x33, 0x34, 0x35] := by decide

/-- The five others (R66). -/
theorem opcodes_needing_no_address : (addressMnemonics false).map opcodeNumber = [0x12, 0x40, 0x41, 0x42, 0x43] := by
  decide

/-- NEWLINE, the branches and HALT always complete: none of them can fault, wait or be refused. -/
theorem exec_of_needsAddress_false {i : Instr} (hi : i.needsAddress = false) (s : State) :
    ∃ u, exec i s = .next u ∧ (u.run = s.run ∨ u.run = .halted) := by
  cases i with
  | newline a => exact ⟨_, exec_newline a s, .inl rfl⟩
  | branch a => exact ⟨_, exec_branch a s, .inl rfl⟩
  | branchNeg a => rw [exec_branchNeg]; split <;> exact ⟨_, rfl, .inl rfl⟩
  | branchZero a => rw [exec_branchZero]; split <;> exact ⟨_, rfl, .inl rfl⟩
  | halt a => exact ⟨_, exec_halt a s, .inr rfl⟩
  | _ => cases hi

/-- Settles O22: the opcode gives the mnemonic, and the mnemonic whether step 5 looks at the operand. -/
theorem stepFiveChecksTheOperand : Obligations.StepFiveChecksTheOperand := by
  intro s c t hrun h0 h1 hw ha hval ht0 ht1
  obtain ⟨hopc, hopd⟩ := fields_of_value hval ht1
  refine ⟨fun hc => ?_, fun hc => ?_⟩
  · rw [← opcodes_needing_an_address] at hc
    obtain ⟨m, hm, rfl⟩ := List.mem_map.1 hc
    have hd : decode _ = _ := decodeWith_of_value opcodeNumber_injective hval ht1
    have hk := checkAndSelect_of_operandOutside ha hd (needsAddress_of_mem hm t) (by rwa [operand_ofMnemonic])
    rw [step_of_check_error hrun h0 h1 hw hk, ← hopc, ← hopd]
    rfl
  · rw [← opcodes_needing_no_address] at hc
    obtain ⟨m, hm, rfl⟩ := List.mem_map.1 hc
    have hn := needsAddress_of_mem hm t
    have hready : s.Ready (.ofMnemonic m t) :=
      ⟨hrun, ⟨h0, h1⟩, hw, ha, decodeWith_of_value opcodeNumber_injective hval ht1, by simp [hn]⟩
    obtain ⟨u, hu, hend⟩ := exec_of_needsAddress_false hn s.front
    exact ⟨u, (step_ready hready).trans hu, by rwa [State.front_run, hrun] at hend⟩

/-- Settles O23: such a Word does not decode, and the look-up comes before the operand's check. -/
theorem unrecognisedOpcodeIsInvalidOpcode : Obligations.UnrecognisedOpcodeIsInvalidOpcode := by
  intro s hrun h0 h1 w hw ha hout
  have hnum : w.toInt < 0 ∨ ∀ m, opcodeNumber m ≠ w.ip / 0x1000 := hout.imp_right (opcodeNumber_ne_iff_not_mem _).2
  obtain ⟨r, hr⟩ := (decode_isError_iff w).2 hnum
  rw [step_of_check_error hrun h0 h1 hw (checkAndSelect_of_reject ha hr), raise_front_record]

/-- Settles O17: the conditions are those of a dispatch. -/
theorem stepRunsTheDecodedInstruction : Obligations.StepRunsTheDecodedInstruction := by
  intro s i hrun h0 h1 w hw ha hd ho
  rw [step_ready ⟨hrun, ⟨h0, h1⟩, hw, ha, hd, ho⟩, State.front_record]

/-- Settles O18: step 1 looks at `IC` alone. -/
theorem stepOneChecksTheInstructionCounter : Obligations.StepOneChecksTheInstructionCounter :=
  fun _ hrun hout => step_of_fetch_error hrun (fetch_of_counterOutside ((inBounds_false_iff _).2 hout))

end Machine
end Sys2Proof
end

section
/-! PROOFS. The instruction counter after a cycle (R117), by the end of the instruction that is dispatched. -/

namespace Sys2Proof
namespace Machine

/-- Only a normal end can both go on running and move the counter. -/
theorem Ends.ic_of_not_running {i : Instr} {s t : State} (h : Ends i s t) (hrun : s.run = .running)
    (ht : t.run ≠ .running) : t.ic = s.ic := by
  cases h with
  | normally run => exact absurd (run.trans hrun) ht
  | halted _ _ eq => rw [eq]
  | waiting _ _ eq => rw [eq]
  | faulted _ _ _ ic => exact ic

/-- A READ-class instruction without a token does not reach the advance of the counter. -/
theorem Ends.ic_of_noToken {i : Instr} {s t : State} (h : Ends i s t) (hr : readClass i = true) (hin : s.input = []) :
    t.ic = s.ic := by
  cases h with
  | normally _ _ _ token => exact absurd hin (token hr)
  | halted _ _ eq => rw [eq]
  | waiting _ _ eq => rw [eq]
  | faulted _ _ _ ic => exact ic

/-- A cycle that goes on running, and does not wait, has ended its instruction normally. -/
theorem Ends.ic_of_running {i : Instr} {s t : State} (h : Ends i s t) (ht : t.run = .running)
    (hr : readClass i = true → s.input ≠ []) : t.ic = nextCounter i s := by
  cases h with
  | normally _ ic => exact ic
  | halted _ _ eq => simp [eq] at ht
  | waiting read noToken => exact absurd noToken (hr read)
  | faulted _ run => simp [run] at ht

/-- Settles O25: each clause is about one way for the dispatched instruction to end; the branch tests are those on the
exact value. -/
theorem instructionCounterAfterACycle : Obligations.InstructionCounterAfterACycle := by
  intro s t i hi h
  rw [step_ready hi] at h
  have he := exec_effect h
  refine ⟨he.ends.ic_of_not_running hi.running, he.ends.ic_of_noToken, fun ht hr => ?_⟩
  rw [he.ends.ic_of_running ht hr, he.opd, hi.opd]
  cases i with
  | branch a => rfl
  | branchNeg a => simp only [nextCounter, State.front_acc, State.front_ic, Word.isNegative_iff_val, Instr.operand]
  | branchZero a => simp only [nextCounter, State.front_acc, State.front_ic, Word.isZero_iff_val, Instr.operand]
  | _ => rfl

end Machine
end Sys2Proof
end

section
/-! PROOFS. When a step answers a next state (R120, R139, R176), and the wait of a READ-class instruction (R120, R239). -/

namespace Sys2Proof
namespace Machine

/-! ### The two refusals -/

/-- The request to the input port fails exactly on a token that the instruction does not fit. -/
theorem inInt_eq_wrongType_iff (s : State) (a : Nat) :
    inInt s = .wrongType ↔ tokenFits (.readInt a) s.input = false := by
  unfold inInt
  split <;> simp [tokenFits, *]

theorem inDouble_eq_wrongType_iff (s : State) (a : Nat) :
    inDouble s = .wrongType ↔ tokenFits (.readDouble a) s.input = false := by
  unfold inDouble
  split <;> simp [tokenFits, *]

theorem inString_eq_wrongType_iff (s : State) (a : Nat) :
    inString s = .wrongType ↔ tokenFits (.readString a) s.input = false := by
  unfold inString
  split <;> simp [tokenFits, *]

theorem exec_of_wrongType {i : Instr} {s : State} (hr : readClass i = true) (ht : tokenFits i s.input = false) :
    exec i s = .refused .wrongTokenType := by
  cases i with
  | readInt a => rw [exec_readInt, (inInt_eq_wrongType_iff s a).2 ht, withToken]
  | readDouble a => rw [exec_readDouble, (inDouble_eq_wrongType_iff s a).2 ht, withToken]
  | readString a => rw [exec_readString, (inString_eq_wrongType_iff s a).2 ht, withToken]
  | _ => cases hr

theorem exec_powerInt_of_zeroToNegative {a : Nat} {s : State} (ha : a < 1000) (hw : (s.cell a).overflow = false)
    (hz : s.zeroToNegative a) : exec (.powerInt a) s = .refused .zeroToNegativePower := by
  rw [exec_powerInt, withCell_cell _ ha hw]
  exact if_pos hz

/-! ### Every other meaning answers a next state -/

/-- The answer is a next state. -/
def AnswersNext (r : Result) : Prop := ∃ t, r = .next t

theorem AnswersNext.next (t : State) : AnswersNext (.next t) := ⟨t, rfl⟩

theorem AnswersNext.ite {p : Prop} [Decidable p] {r r' : Result} (h : AnswersNext r) (h' : AnswersNext r') :
    AnswersNext (if p then r else r') := by
  split
  · exact h
  · exact h'

/-- The fault of the read is a next state too. -/
theorem AnswersNext.withCell {a : Nat} {s : State} {f : Word → Result}
    (hf : (s.cell a).overflow = false → AnswersNext (f (s.cell a))) : AnswersNext (withCell a s f) := by
  obtain ⟨_, hw, h⟩ | ⟨_, h⟩ | ⟨_, _, h⟩ := withCell_cases a s f <;> rw [h]
  · exact hf hw
  · exact .next _
  · exact .next _

theorem AnswersNext.withStore {a : Nat} {w : Word} {s : State} {f : State → Result} (hf : ∀ t, AnswersNext (f t)) :
    AnswersNext (withStore a w s f) := by
  obtain ⟨_, _, h⟩ | ⟨_, h⟩ | ⟨_, _, h⟩ := withStore_cases a w s f <;> rw [h]
  · exact hf _
  · exact .next _
  · exact .next _

theorem AnswersNext.finishTransfer (r : Transfer) : AnswersNext (finishTransfer r) := by
  cases r with
  | ok t => exact .next _
  | error e => exact .next _

theorem AnswersNext.withToken {α : Type} {r : Request α} {s : State} {f : α → State → Result} (hr : r ≠ .wrongType)
    (hf : ∀ x t, AnswersNext (f x t)) : AnswersNext (withToken r s f) := by
  cases r with
  | blocked => exact .next s
  | wrongType => exact absurd rfl hr
  | token x t => exact hf x t

theorem AnswersNext.of_needsAddress_false {i : Instr} (hi : i.needsAddress = false) (s : State) :
    AnswersNext (exec i s) := by
  obtain ⟨u, hu, _⟩ := exec_of_needsAddress_false hi s
  exact ⟨u, hu⟩

/-- Every instruction answers a next state, but for a token of another type and `0` to a negative power. -/
theorem exec_answersNext {i : Instr} {s : State} (ht : readClass i = true → tokenFits i s.input ≠ false)
    (hp : ∀ a, i = .powerInt a → (s.cell a).overflow = false → ¬ s.zeroToNegative a) : AnswersNext (exec i s) := by
  cases i with
  | readInt a =>
    rw [exec_readInt]
    exact .withToken (mt (inInt_eq_wrongType_iff s a).1 (ht rfl)) fun _ _ => .withStore fun _ => .next _
  | readDouble a =>
    rw [exec_readDouble]
    exact .withToken (mt (inDouble_eq_wrongType_iff s a).1 (ht rfl)) fun _ _ => .withStore fun _ => .next _
  | readString a =>
    rw [exec_readString]
    exact .withToken (mt (inString_eq_wrongType_iff s a).1 (ht rfl)) fun _ _ => .finishTransfer _
  | writeInt a => rw [exec_writeInt]; exact .withCell fun _ => .next _
  | writeDouble a => rw [exec_writeDouble]; exact .withCell fun _ => .next _
  | writeString a => rw [exec_writeString]; exact .finishTransfer _
  | load a => rw [exec_load]; exact .withCell fun _ => .next _
  | store a => rw [exec_store]; exact .withStore fun _ => .next _
  | addDouble a => rw [exec_addDouble]; exact .withCell fun _ => .next _
  | subtractDouble a => rw [exec_subtractDouble]; exact .withCell fun _ => .next _
  | multiplyDouble a => rw [exec_multiplyDouble]; exact .withCell fun _ => .next _
  | powerDouble a => rw [exec_powerDouble]; exact .withCell fun _ => .next _
  | addInt a => rw [exec_addInt]; exact .withCell fun _ => .next _
  | subtractInt a => rw [exec_subtractInt]; exact .withCell fun _ => .next _
  | multiplyInt a => rw [exec_multiplyInt]; exact .withCell fun _ => .next _
  | divideDouble a => rw [exec_divideDouble]; exact .withCell fun _ => .ite (.next _) (.next _)
  | remainderDouble a => rw [exec_remainderDouble]; exact .withCell fun _ => .ite (.next _) (.next _)
  | divideInt a => rw [exec_divideInt]; exact .withCell fun _ => .ite (.next _) (.next _)
  | remainderInt a => rw [exec_remainderInt]; exact .withCell fun _ => .ite (.next _) (.next _)
  | powerInt a =>
    rw [exec_powerInt]
    refine .withCell fun hw => ?_
    have hz : ¬ (s.acc.toInt = 0 ∧ (s.cell a).toInt < 0) := hp a rfl hw
    rw [if_neg hz]
    exact .next _
  | newline a => exact .of_needsAddress_false rfl s
  | branch a => exact .of_needsAddress_false rfl s
  | branchNeg a => exact .of_needsAddress_false rfl s
  | branchZero a => exact .of_needsAddress_false rfl s
  | halt a => exact .of_needsAddress_false rfl s

/-- Settles O31: the two refusals by their instructions, and a next state by how far the cycle comes. -/
theorem stepAnswersOutsideTheTwoRefusals : Obligations.StepAnswersOutsideTheTwoRefusals := by
  intro s
  refine ⟨fun ⟨i, hi, hr, ht⟩ => ?_, fun ⟨a, hi, hw, hz⟩ => ?_, fun hwrong hpower => ?_⟩
  · rw [step_ready hi]
    exact exec_of_wrongType hr ht
  · rw [step_ready hi]
    exact exec_powerInt_of_zeroToNegative (hi.operand rfl) hw hz
  · by_cases hrun : s.run = .running
    · obtain ⟨_, h⟩ | ⟨_, _, h⟩ | ⟨_, _, ⟨_, h⟩ | ⟨_, _, h⟩ | ⟨_, _, _, _, h⟩⟩ | ⟨i, hi, h⟩ := step_cases hrun
      · exact ⟨_, h⟩
      · exact ⟨_, h⟩
      · exact ⟨_, h⟩
      · exact ⟨_, h⟩
      · exact ⟨_, h⟩
      · rw [h]
        refine exec_answersNext (fun hr ht => hwrong ⟨i, hi, hr, ht⟩) fun a ha hw hz => hpower ⟨a, ?_, hw, hz⟩
        rwa [← ha]
    · exact ⟨s, step_of_not_running hrun⟩

/-! ### The wait for a token -/

theorem exec_of_noToken {i : Instr} {s : State} (hr : readClass i = true) (hin : s.input = []) : exec i s = .next s := by
  cases i with
  | readInt a => simp only [exec_readInt, inInt, hin, withToken]
  | readDouble a => simp only [exec_readDouble, inDouble, hin, withToken]
  | readString a => simp only [exec_readString, inString, hin, withToken]
  | _ => cases hr

/-- Steps 1 to 3 write nothing that steps 1 to 5 read, so they pass again as before. -/
theorem State.Ready.front {s : State} {i : Instr} (h : s.Ready i) : s.front.Ready i :=
  ⟨h.running, h.counter, h.fetchable, h.accumulator, h.decoded, h.operand⟩

/-- A token that arrives does not matter to steps 1 to 5. -/
theorem State.Ready.supply {s : State} {i : Instr} (h : s.Ready i) (tok : Token) : (s.supply tok).Ready i :=
  ⟨h.running, h.counter, h.fetchable, h.accumulator, h.decoded, h.operand⟩

/-- Steps 1 to 3 done twice are steps 1 to 3 done once. -/
theorem State.front_front (s : State) : s.front.front = s.front := rfl

theorem State.front_supply_front (s : State) (tok : Token) : (s.front.supply tok).front = (s.supply tok).front := rfl

/-- Settles O32: the wait leaves the state that steps 1 to 3 leave, and a cycle from there goes as from the start. -/
theorem blockedReadWaitsForItsToken : Obligations.BlockedReadWaitsForItsToken := by
  intro s i tok hi hr hin
  have hwait : exec i s.front = .next s.front := exec_of_noToken hr hin
  refine ⟨s.front, ?_, rfl, ?_, ?_⟩
  · rw [step_ready hi, hwait]
  · rw [step_ready hi.front, State.front_front, hwait]
  · rw [step_ready (hi.front.supply tok), step_ready (hi.supply tok), State.front_supply_front]

end Machine
end Sys2Proof
end

section
/-! PROOFS. The ports through whole steps: who appends to the output and who takes from the input (R139, R140). -/

namespace Sys2Proof
namespace Machine

/-- The instructions that can append to the output, one by one. -/
theorem eq_of_writesOutput {i : Instr} (h : writesOutput i = true) :
    ∃ a, i = .writeInt a ∨ i = .newline a ∨ i = .writeString a ∨ i = .writeDouble a := by
  cases i <;> simp [writesOutput] at h ⊢

/-- A cycle only appends to the output, and has dispatched one of the output's writers when it appends anything. -/
theorem CycleResult.output_append {s t : State} (h : CycleResult s t) :
    ∃ es, t.output = s.output ++ es ∧ (es ≠ [] → ∃ i, s.Ready i ∧ writesOutput i = true) := by
  cases h with
  | counterOutside _ eq => exact ⟨[], by simp [eq], by simp⟩
  | fetchFault _ eq => exact ⟨[], by simp [eq], by simp⟩
  | checkFault _ _ _ eq => exact ⟨[], by simp [eq], by simp⟩
  | dispatched i hi hx =>
    obtain ⟨es, ho, hes, _⟩ := (exec_effect hx).output
    exact ⟨es, ho, fun hne => ⟨i, hi, hes hne⟩⟩

/-- A cycle leaves the input, or has dispatched a READ-class instruction that has taken the first token. -/
theorem CycleResult.input_cases {s t : State} (h : CycleResult s t) :
    t.input = s.input ∨ ∃ tok i, s.input = tok :: t.input ∧ s.Ready i ∧ readClass i = true := by
  cases h with
  | counterOutside _ eq => exact .inl (by rw [eq, raise_input])
  | fetchFault _ eq => exact .inl (by rw [eq, raise_input])
  | checkFault _ _ _ eq => exact .inl (by rw [eq, raise_input, State.front_input])
  | dispatched i hi hx =>
    exact (exec_effect hx).input.imp_right fun ⟨hr, tok, htok⟩ => ⟨tok, i, htok, hi, hr⟩

/-- Settles O30: of the results of a cycle only those of the ports' own instructions move them. -/
theorem portsMoveOnlyByTheirInstructions : Obligations.PortsMoveOnlyByTheirInstructions := by
  intro s t h
  obtain rfl | ⟨_, hc⟩ := cycleResult_or_eq h
  · exact ⟨⟨[], by simp, by simp⟩, .inl rfl⟩
  obtain ⟨es, ho, hes⟩ := hc.output_append
  refine ⟨⟨es, ho, fun hne => ?_⟩, hc.input_cases⟩
  obtain ⟨i, hi, hw⟩ := hes hne
  obtain ⟨a, rfl | rfl | rfl | rfl⟩ := eq_of_writesOutput hw
  · exact ⟨a, .inl hi⟩
  · exact ⟨a, .inr (.inl hi)⟩
  · exact ⟨a, .inr (.inr (.inl hi))⟩
  · exact ⟨a, .inr (.inr (.inr hi))⟩

end Machine
end Sys2Proof
end

section
/-! PROOFS. The instructions that move one Word through a port: READ_INT and READ_DOUBLE by the token and the checked
store, WRITE_INT, WRITE_DOUBLE and NEWLINE by the event (R130 to R132, R135, R136). -/

namespace Sys2Proof
namespace Machine

/-! ### Output -/

/-- Settles O41: the integer of the event is the decode of the cell. -/
theorem writeIntEmitsTheIntegerPart : Obligations.WriteIntEmitsTheIntegerPart := by
  intro s a ha hw
  rw [exec_writeInt, withCell_cell _ ha hw]
  rfl

/-- Settles O48: the event is the cell itself. -/
theorem writeDoubleEmitsTheWord : Obligations.WriteDoubleEmitsTheWord := by
  intro s a ha hw
  rw [exec_writeDouble, withCell_cell _ ha hw]
  rfl

/-- Settles O42: the meaning does not see the operand. -/
theorem newlineEmitsALineBreak : Obligations.NewlineEmitsALineBreak :=
  fun s a => exec_newline a s

/-! ### Input -/

theorem exec_readInt_of_token {s : State} {n : Int} {rest : List Token} (hin : s.input = .int n :: rest) (a : Nat) :
    exec (.readInt a) s = withStore a (.fromInt n) { s with input := rest } fun t => .next (advance t) := by
  simp only [exec_readInt, inInt, hin, withToken]

theorem exec_readDouble_of_token {s : State} {x : NativeDouble} {rest : List Token}
    (hin : s.input = .double x :: rest) (a : Nat) :
    exec (.readDouble a) s = withStore a (encodeDouble x) { s with input := rest } fun t => .next (advance t) := by
  simp only [exec_readDouble, inDouble, hin, withToken]

/-- The store of a Word that overflows faults with nothing stored. -/
theorem withStore_of_overflow {a : Nat} {w : Word} {s : State} (f : State → Result) (ha : a < 1000)
    (hw : w.overflow = true) : withStore a w s f = .next (raise .wordOverflow s) := by
  rw [withStore, memWrite_error_iff.2 (.inr ⟨(inBounds_nat a).2 ha, hw, rfl⟩)]

/-- A Word in range that is stored as the last act of an instruction is read back from its cell, and the memory and the
counter are all that changes. -/
theorem withStore_advance {a : Nat} {w : Word} {s : State} (ha : a < 1000) (hm : s.mem.wf = true)
    (hw : w.overflow = false) :
    ∃ t, withStore a w s (fun u => .next (advance u)) = .next t ∧
      t = { s with mem := t.mem, ic := .fromInt (s.ic.toInt + 1) } ∧ t.cell a = w ∧ ∀ b, b ≠ a → t.cell b = s.cell b :=
  ⟨_, withStore_cell _ ha hw, rfl, Memory.get_set_same hm a w, fun _ hb => Memory.get_set_other w hb⟩

/-- Settles O40: the token is taken, and then the store goes by the range of the integer. -/
theorem readIntStoresItsToken : Obligations.ReadIntStoresItsToken := by
  intro s a n rest ha hm hin
  rw [exec_readInt_of_token hin]
  refine ⟨fun hn => ?_, fun hn => ?_⟩
  · exact withStore_advance (s := { s with input := rest }) ha hm ((Word.overflow_fromInt_false n).2 hn)
  · exact withStore_of_overflow _ ha ((Word.overflow_fromInt n).2 hn)

/-- Dropping the sign of a zero does not change the magnitude. -/
theorem overflow_encodeDouble (x : NativeDouble) : (encodeDouble x).overflow = (Config.fromDouble x).overflow :=
  Word.overflow_plusZero _

/-- Settles O47: as for READ_INT, by whether the free Word overflows. -/
theorem readDoubleStoresTheEncodedToken : Obligations.ReadDoubleStoresTheEncodedToken := by
  intro s a x rest ha hm hin
  rw [exec_readDouble_of_token hin]
  cases hw : (Config.fromDouble x).overflow with
  | false => exact withStore_advance (s := { s with input := rest }) ha hm ((overflow_encodeDouble x).trans hw)
  | true =>
    exact ⟨_, withStore_of_overflow _ ha ((overflow_encodeDouble x).trans hw), rfl, rfl, fun _ _ => rfl⟩

end Machine
end Sys2Proof
end

section
/-! PROOFS. READSTRING: the packed string goes to the cells, whole or up to the fault that cuts it (R133, R137). -/

namespace Sys2Proof
namespace Machine

theorem exec_readString_of_token {s : State} {cs : List (Fin 256)} {rest : List Token}
    (hin : s.input = .string cs :: rest) (a : Nat) :
    exec (.readString a) s = finishTransfer (storeString a cs { s with input := rest }) := by
  simp only [exec_readString, inString, hin, withToken]

/-- The first Word of a packed string carries the length in its upper field, which has three digits. -/
theorem overflow_stringWord_zero {cs : List (Fin 256)} (h : 0xFFF < cs.length) : (stringWord cs 0).overflow = true := by
  rw [stringWord, if_pos rfl, Word.overflow_fromInt, Int.natAbs_natCast]
  omega

/-- The store of a string of more than 0xFFF characters is cut before its first Word. -/
theorem storeString_tooLong {s : State} {a : Nat} {cs : List (Fin 256)} (ha : a < 1000) (h : 0xFFF < cs.length) :
    storeString a cs s = .error (.wordOverflow, s) := by
  obtain ⟨ws, hws⟩ := List.head?_eq_some_iff.1 (List.head?_eq_getElem?.trans (packString_get cs 0 (Nat.zero_le _)))
  rw [storeString, hws, storeWords, memWrite_error_iff.2 (.inr ⟨(inBounds_nat a).2 ha, overflow_stringWord_zero h, rfl⟩)]

/-- The store of a string that runs past the last cell is cut there, with the Words before it written. -/
theorem storeString_runsOut {s : State} {a : Nat} {cs : List (Fin 256)} (ha : a < 1000) (h : cs.length ≤ 0xFFF)
    (hout : 1000 ≤ a + cs.length / 2) :
    ∃ t, storeString a cs s = .error (.addressOutOfBounds, t) ∧ Written (packString cs) a (1000 - a) s t := by
  obtain ⟨t, _, hw⟩ | ⟨n, w, t, k, hv, ht, hw, hk⟩ := storeWords_cases (packString cs) a s
  · have hb := hw.bound
    rw [packString_length] at hb
    omega
  · have hn : n < (packString cs).length := (List.getElem?_eq_some_iff.1 hv).1
    rw [packString_length] at hn
    obtain ⟨rfl, hend⟩ | ⟨_, _, ho⟩ := hk
    · obtain rfl : n = 1000 - a := by have := hw.bound; omega
      exact ⟨t, ht, hw⟩
    · rw [packString_get cs n (by omega), Option.some.injEq] at hv
      rw [← hv, stringWord_overflow cs n h] at ho
      cases ho

/-- Settles O43: the store of the packed string fits, is too long, or runs out of cells. -/
theorem readStringStoresThePackedString : Obligations.ReadStringStoresThePackedString := by
  intro s a cs rest ha hm hin
  rw [exec_readString_of_token hin]
  refine ⟨fun hlen hfit => ?_, fun hlen => ?_, fun hlen hout => ?_⟩
  · obtain ⟨t, ht, hw⟩ := storeString_fits (s := { s with input := rest }) hlen hfit
    have hcells : ∀ k, k ≤ cs.length / 2 → t.cell (a + k) = stringWord cs k :=
      fun k hk => hw.stringWord (s := { s with input := rest }) hm (Nat.lt_succ_of_le hk)
    refine ⟨advance t, by rw [ht, finishTransfer], ?_, hcells, fun b hb => hw.others b (by omega)⟩
    rw [hw.rest]
    rfl
  · rw [storeString_tooLong ha hlen]
    rfl
  · obtain ⟨t, ht, hw⟩ := storeString_runsOut (s := { s with input := rest }) ha hlen hout
    have hcells : ∀ k, a + k < 1000 → t.cell (a + k) = stringWord cs k :=
      fun k hk => hw.stringWord (s := { s with input := rest }) hm (by omega)
    refine ⟨raise .addressOutOfBounds t, by rw [ht, finishTransfer], ?_, hcells, fun b hb => hw.others b (.inl hb)⟩
    rw [hw.rest]
    rfl

end Machine
end Sys2Proof
end

section
/-! PROOFS. WRITESTRING: the characters that the cells hold, up to the length or to the end of the memory (R134, R138). -/

namespace Sys2Proof
namespace Machine

/-- Settles O44: `PrintString` is not cut. -/
theorem writeStringEmitsTheLengthItsWordSays : Obligations.WriteStringEmitsTheLengthItsWordSays := by
  intro s a hr ha length cs hlen
  refine ⟨?_, List.length_take_of_le hlen, fun c hc => storedChars_le hr a c (List.mem_of_mem_take hc)⟩
  have hupper : (s.cell a).upper ≤ (s.storedChars a).length := hlen
  rw [exec_writeString, printString_eq a s hr ha, if_pos hupper]
  rfl

/-- A Word behind the first holds one character or two. -/
theorem cellChars_length (w : Word) : 1 ≤ (cellChars w).length ∧ (cellChars w).length ≤ 2 := by
  unfold cellChars
  split <;> simp

theorem charsFrom_succ (s : State) (a d : Nat) :
    charsFrom s a (d + 1) = cellChars (s.cell a) ++ charsFrom s (a + 1) d := by
  simp [charsFrom, List.range'_succ]

/-- `d` cells behind the first hold between `d` and `2 * d` characters. -/
theorem charsFrom_length (s : State) (a d : Nat) : d ≤ (charsFrom s a d).length ∧ (charsFrom s a d).length ≤ 2 * d := by
  induction d generalizing a with
  | zero => simp
  | succ d ih =>
    have hw := cellChars_length (s.cell a)
    have hd := ih (a + 1)
    rw [charsFrom_succ, List.length_append]
    omega

/-- The first cell holds one character, and the cells behind it as many as `charsFrom` says. -/
theorem storedChars_length (s : State) (a : Nat) :
    (s.storedChars a).length = (charsFrom s (a + 1) (1000 - (a + 1))).length + 1 := rfl

/-- Settles O45: `PrintString` is cut by the read of cell 1000. -/
theorem writeStringCutByTheEndOfMemory : Obligations.WriteStringCutByTheEndOfMemory := by
  intro s a hr ha
  refine ⟨?_, fun hlen => ⟨?_, storedChars_le hr a⟩⟩
  · have hd := charsFrom_length s (a + 1) (1000 - (a + 1))
    rw [storedChars_length]
    omega
  · have hupper : ¬ (s.cell a).upper ≤ (s.storedChars a).length := Nat.not_le.2 hlen
    rw [exec_writeString, printString_eq a s hr ha, if_neg hupper]
    rfl

end Machine
end Sys2Proof
end

section
/-! PROOFS. The string round trip (R137, R138): `PrintString` undoes `StoreString`. The memory behind the string plays no part,
so `PrintString` is followed here along the Words of the string, whatever the other cells hold. -/

namespace Sys2Proof

theorem Word.upper_pack (u : Nat) {l : Nat} (hl : l < 256) : (pack u l).upper = u := by
  simp only [upper, pack, ip_fromInt, Int.natAbs_natCast, Config.strDiv]
  omega

theorem Word.lower_pack (u : Nat) {l : Nat} (hl : l < 256) : (pack u l).lower = l := by
  simp only [lower, pack, ip_fromInt, Int.natAbs_natCast, Config.strDiv]
  omega

namespace Machine

/-- The cells from `a` on can be read, and hold the Words `ws`. -/
def ReadsAs (ws : List Word) (a : Int) (s : State) : Prop :=
  ∀ (k : Nat) (w : Word), ws[k]? = some w → memRead (a + k) s = .ok w

theorem ReadsAs.head {w : Word} {ws : List Word} {a : Int} {s : State} (h : ReadsAs (w :: ws) a s) :
    memRead a s = .ok w := by
  simpa using h 0 w rfl

theorem ReadsAs.tail {w : Word} {ws : List Word} {a : Int} {s : State} (h : ReadsAs (w :: ws) a s) :
    ReadsAs ws (a + 1) s := fun k v hv => by
  rw [show a + 1 + (k : Int) = a + (k + 1 : Nat) by omega]
  exact h (k + 1) v hv

/-- Neither output nor the counter changes what the cells hold. -/
theorem ReadsAs.emit {ws : List Word} {a : Int} {s : State} (h : ReadsAs ws a s) (e : Event) :
    ReadsAs ws a (Machine.emit e s) := h

theorem ReadsAs.advance {ws : List Word} {a : Int} {s : State} (h : ReadsAs ws a s) :
    ReadsAs ws a (Machine.advance s) := h

/-- Words that have been stored can be read. -/
theorem Written.readsAs {ws : List Word} {a : Nat} {s t : State} (hm : s.mem.wf = true)
    (h : Written ws a ws.length s t) : ReadsAs ws a t := by
  intro k w hk
  have hlt : k < ws.length := (List.getElem?_eq_some_iff.1 hk).1
  obtain ⟨v, hv, hcell, ho⟩ := h.words hm k hlt
  obtain rfl : w = v := Option.some.inj (hk.symm.trans hv)
  have hbound : a + k < 1000 := by have := h.bound; omega
  have hread := memRead_cell hbound (by rwa [hcell])
  rwa [hcell] at hread

/-- The loop of `PrintString` along the Words of the characters after the first: the second of each pair is not 0, so it
is a character of the string and not a field left over. -/
theorem printRest_packPairs {cs : List (Fin 256)} {a : Int} {s : State} (h : ReadsAs (packPairs cs) a s)
    (hcs : ∀ k c, cs[2 * k + 1]? = some c → c ≠ 0) :
    printRest cs.length a s = .ok (emitted s (cs.map Fin.val)) := by
  induction cs using packPairs.induct generalizing a s with
  | case1 => simp [printRest]
  | case2 c =>
    simp [printRest, h.head, Word.upper_pack, emitted, Machine.emit]
  | case3 c d rest ih =>
    have hd : d.val ≠ 0 := Fin.val_ne_of_ne (hcs 0 d rfl)
    have hrest : printRest rest.length (a + 1) (Machine.emit (.char d.val) (Machine.emit (.char c.val) s)) = _ :=
      ih ((h.tail.emit _).emit _) fun k e he => hcs (k + 1) e he
    simp only [List.length_cons, printRest, h.head, Word.lower_pack _ d.isLt, Word.upper_pack _ d.isLt, if_neg hd, hrest,
      emitted_emit, List.map_cons]

/-- `PrintString` along the Words of a packed string. -/
theorem printString_packString {cs : List (Fin 256)} {a : Int} {s : State} (h : ReadsAs (packString cs) a s)
    (hcs : ∀ k c, 0 < k → cs[2 * k]? = some c → c ≠ 0) :
    printString a s = .ok (emitted s (cs.map Fin.val)) := by
  cases cs with
  | nil => simp [printString, h.head, Word.upper, Word.zero]
  | cons c rest =>
    have hrest : printRest rest.length (a + 1) (Machine.emit (.char c.val) s) = _ :=
      printRest_packPairs (h.tail.emit _) fun k d hd => hcs (k + 1) d k.succ_pos hd
    simp only [printString, h.head, Word.upper_pack _ c.isLt, Word.lower_pack _ c.isLt, Nat.add_one_ne_zero, if_false,
      Nat.add_sub_cancel, hrest, emitted_emit, List.map_cons]

/-- Settles O46: the string that READSTRING has stored is what WRITESTRING reads. -/
theorem stringRoundTrip : Obligations.StringRoundTrip := by
  intro s a cs rest hm hin hlen hfit hcs
  obtain ⟨t, ht, hw⟩ := storeString_fits (s := { s with input := rest }) hlen hfit
  rw [← packString_length] at hw
  have hreads : ReadsAs (packString cs) a t := hw.readsAs (s := { s with input := rest }) hm
  refine ⟨advance t, by rw [exec_readString_of_token hin, ht, finishTransfer], ?_⟩
  rw [exec_writeString, printString_packString hreads.advance hcs, finishTransfer, hw.rest]
  simp [emitted, advance]

end Machine
end Sys2Proof
end

section
/-! PROOFS. LOAD and STORE: the checked read and the checked store of a whole Word, neither of which can fail after steps
4 and 5 (R150, R151). -/

namespace Sys2Proof
namespace Machine

/-- Settles O49: the read of a cell in range answers its Word, and LOAD puts that Word into the accumulator. -/
theorem loadCopiesTheCell : Obligations.LoadCopiesTheCell := by
  intro s a ha hw
  rw [exec_load, withCell_cell _ ha hw]
  rfl

/-- Settles O50: the store of an accumulator in range answers the memory with the Word set, and `ZERO` replaces the
accumulator after it. -/
theorem storeWritesTheCellAndClearsTheAccumulator : Obligations.StoreWritesTheCellAndClearsTheAccumulator := by
  intro s a ha hm hw
  refine ⟨_, (exec_store a s).trans (withStore_cell _ ha hw), rfl, ?_, fun b hb => ?_⟩
  · exact Memory.get_set_same hm a s.acc
  · exact Memory.get_set_other s.acc hb

end Machine
end Sys2Proof
end

section
/-! PROOFS. The floating-mode arithmetic on a cell in range: the free result replaces the accumulator, in the two divisions
once the divisor has passed its zero test (R155 to R161). -/

namespace Sys2Proof
namespace Machine

theorem floatIntoAcc_cell (op : FloatOp) {a : Nat} {s : State} (ha : a < 1000) (hw : (s.cell a).overflow = false) :
    floatIntoAcc op a s = finishAcc (floatArith op s.acc (s.cell a)) s :=
  withCell_cell _ ha hw

/-- The zero test of the divisor is on its exact value (D24). -/
theorem floatDivideIntoAcc_cell (op : FloatOp) {a : Nat} {s : State} (ha : a < 1000)
    (hw : (s.cell a).overflow = false) : floatDivideIntoAcc op a s =
      if (s.cell a).val = 0 then .next (raise .divisionByZero s)
      else finishAcc (floatArith op s.acc (s.cell a)) s := by
  rw [floatDivideIntoAcc, withCell_cell _ ha hw]
  simp only [Word.isZero_iff_val]

/-- Settles O51: four of the instructions are the unchecked operation, and the two divisions are the checked one, whose
test a divisor other than zero passes. -/
theorem floatingArithmeticReplacesTheAccumulator : Obligations.FloatingArithmeticReplacesTheAccumulator := by
  intro s a ha hw
  have unchecked (op : FloatOp) := floatIntoAcc_cell op ha hw
  refine ⟨unchecked .add, unchecked .subtract, unchecked .multiply, unchecked .power, fun hy => ?_⟩
  have checked (op : FloatOp) := (floatDivideIntoAcc_cell op ha hw).trans (if_neg hy)
  exact ⟨checked .divide, checked .remainder⟩

end Machine
end Sys2Proof
end

section
/-! PROOFS. The integer-mode arithmetic on a cell in range: the exact result replaces the accumulator, in the two
divisions once the divisor has passed its zero test and in the power once the refused operands are excluded; a result out
of range ends the next cycle in step 4 (R171 to R176, R114). -/

namespace Sys2Proof
namespace Machine

/-! ### What the instructions answer -/

theorem intIntoAcc_cell (op : IntOp) {a : Nat} {s : State} (ha : a < 1000) (hw : (s.cell a).overflow = false) :
    intIntoAcc op a s = finishAcc (intArith op s.acc (s.cell a)) s :=
  withCell_cell _ ha hw

/-- The zero test of the divisor is on its integer part (D24). -/
theorem intDivideIntoAcc_cell (op : IntOp) {a : Nat} {s : State} (ha : a < 1000) (hw : (s.cell a).overflow = false) :
    intDivideIntoAcc op a s = if (s.cell a).toInt = 0 then .next (raise .divisionByZero s)
      else finishAcc (intArith op s.acc (s.cell a)) s :=
  withCell_cell _ ha hw

theorem exec_powerInt_of_not_zeroToNegative {a : Nat} {s : State} (ha : a < 1000) (hw : (s.cell a).overflow = false)
    (hz : ¬ s.zeroToNegative a) : exec (.powerInt a) s = finishAcc (intArith .exponent s.acc (s.cell a)) s := by
  rw [exec_powerInt, withCell_cell _ ha hw]
  exact if_neg hz

/-! ### The ranges of quotient and remainder -/

/-- The quotient of a dividend in range is in range. -/
theorem overflow_fromInt_tdiv {x : Int} (hx : x.natAbs ≤ 0xFFFFF) (y : Int) :
    (Word.fromInt (x.tdiv y)).overflow = false :=
  (Word.overflow_fromInt_false _).2 ((Int.natAbs_tdiv_le_natAbs x y).trans hx)

/-- The remainder by a divisor in range is in range, whatever the dividend. -/
theorem overflow_fromInt_tmod (x : Int) {y : Int} (hy : y ≠ 0) (hr : y.natAbs ≤ 0xFFFFF) :
    (Word.fromInt (x.tmod y)).overflow = false :=
  (Word.overflow_fromInt_false _).2 ((natAbs_tmod_lt x hy).le.trans hr)

/-! ### The obligations -/

/-- Settles O53: the three are the unchecked operation, whose ranges are those of the ALU, and step 4 of the next cycle
tests the magnitude of the result. -/
theorem integerAddSubtractMultiply : Obligations.IntegerAddSubtractMultiply := by
  refine ⟨fun s a ha hw => ?_, fun t r hacc hrun h0 h1 hw => ⟨fun hbig => ?_, fun hr i hd ho => ?_⟩⟩
  · have unchecked (op : IntOp) := intIntoAcc_cell op ha hw
    obtain ⟨_, _, _, hrange, _⟩ := sumDifferenceAndProductAreExact s.acc (s.cell a)
    exact ⟨unchecked .add, unchecked .subtract, unchecked .multiply, fun hx => hrange hx hw⟩
  · have hover : t.acc.overflow = true := hacc ▸ (Word.overflow_fromInt r).2 hbig
    exact ⟨_, step_of_check_error hrun h0 h1 hw (checkAndSelect_of_overflow hover), rfl⟩
  · have hfits : t.acc.overflow = false := hacc ▸ (Word.overflow_fromInt_false r).2 hr
    exact ⟨hrun, ⟨h0, h1⟩, hw, hfits, hd, ho⟩

/-- Settles O54: the divisor passes its zero test, the quotient is no larger than the dividend and the remainder is
smaller than the divisor. -/
theorem integerDivideAndRemainder : Obligations.IntegerDivideAndRemainder := by
  intro s a ha hw hy
  have checked (op : IntOp) := (intDivideIntoAcc_cell op ha hw).trans (if_neg hy)
  refine ⟨checked .divide, checked .mod, fun hx => ?_, ?_⟩
  · exact overflow_fromInt_tdiv (Word.natAbs_toInt_le_of_overflow hx) _
  · exact overflow_fromInt_tmod _ hy (Word.natAbs_toInt_le_of_overflow hw)

/-- Settles O55: the sign of the exponent decides which of the ALU's two equations of the power holds, and only 0 to a
negative power is refused. -/
theorem integerPowerCompletesWhereItHasAValue : Obligations.IntegerPowerCompletesWhereItHasAValue := by
  intro s a ha hw
  obtain ⟨hexact, htruncated, _⟩ := integerPowerAtEveryStatedCorner s.acc (s.cell a)
  refine ⟨fun hy => ?_, fun hy hx => ?_, fun hx hy => exec_powerInt_of_zeroToNegative ha hw ⟨hx, hy⟩⟩
  · rw [exec_powerInt_of_not_zeroToNegative ha hw fun ⟨_, hneg⟩ => hneg.not_ge hy, hexact hy]
    rfl
  · rw [exec_powerInt_of_not_zeroToNegative ha hw fun ⟨hzero, _⟩ => hx hzero, htruncated hy hx]
    rfl

end Machine
end Sys2Proof
end

section
/-! PROOFS. The four control instructions, for every operand: where each leaves `IC` and `RUN`, with the tests of the two
conditional branches on the accumulator's exact value (R185 to R188). -/

namespace Sys2Proof
namespace Machine

/-- Settles O57: the sign test is equivalent to a negative value and the zero test to the value 0 (D9), so that the
condition is replaced and the two branches stand as they are. -/
theorem conditionalBranchesTestTheAccumulatorsValue : Obligations.ConditionalBranchesTestTheAccumulatorsValue := by
  intro s a
  refine ⟨(exec_branchNeg a s).trans ?_, (exec_branchZero a s).trans ?_⟩
  · exact if_congr s.acc.isNegative_iff_val rfl rfl
  · exact if_congr s.acc.isZero_iff_val rfl rfl

/-- Settles O56: the target is not validated (D6), so that `branchTo` is all that BRANCH does. -/
theorem branchGoesToItsOperand : Obligations.BranchGoesToItsOperand :=
  fun s a => exec_branch a s

/-- Settles O58: the operand is ignored (D22) and the cycle ends without step 7, so that `IC` is kept. -/
theorem haltStopsTheMachine : Obligations.HaltStopsTheMachine :=
  fun s a => exec_halt a s

end Machine
end Sys2Proof
end

section
/-! PROOFS. Precise faults: what the machine holds when a cycle ends in a fault, by how far the cycle came (R200, R208);
and the division by zero, which comes before any arithmetic (R203, R158, R160, R173, R175). -/

namespace Sys2Proof
namespace Machine

/-- Of the ends of an instruction of a running machine only a fault shows in `RUN` as one; what that end may have
changed. -/
theorem Ends.of_faulted {i : Instr} {s t : State} {k : Fault} (h : Ends i s t) (hrun : s.run = .running)
    (ht : t.run = .faulted k) :
    k ≠ .programCounterOutOfBounds ∧ t.acc = s.acc ∧ t.ic = s.ic ∧
      (t.mem = s.mem ∨ ∃ a, i = .readString a ∧ ∀ b, b < a → t.cell b = s.cell b) ∧
      (t.output = s.output ∨ ∃ (a : Nat) (cs : List Nat), i = .writeString a ∧
        t.output = s.output ++ cs.map .char) := by
  cases h with
  | normally run => simp [run, hrun] at ht
  | halted _ _ eq => simp [eq] at ht
  | waiting _ _ eq => simp [eq, hrun] at ht
  | faulted k' run kind ic acc mem output =>
    obtain rfl : k' = k := RunState.faulted.inj (run.symm.trans ht)
    exact ⟨kind, acc, ic, mem, output⟩

/-- Settles O26, by how far the cycle came: a fault of steps 1 to 5 finds nothing written but `IR`, `OPC` and `OPD`, and
none of the instructions raises `ProgramCounterOutOfBounds`. -/
theorem faultsArePrecise : Obligations.FaultsArePrecise := by
  intro s t k hrun h ht
  cases cycleResult_of_step hrun h with
  | counterOutside _ eq =>
    subst eq
    cases ht
    exact ⟨rfl, rfl, fun _ => rfl, absurd rfl, absurd rfl, absurd rfl⟩
  | fetchFault _ eq =>
    subst eq
    cases ht
    exact ⟨rfl, rfl, fun _ => rfl, absurd rfl, absurd rfl, absurd rfl⟩
  | checkFault _ kind _ eq =>
    subst eq
    cases ht
    exact ⟨rfl, rfl, fun hk => absurd hk kind, absurd rfl, absurd rfl, absurd rfl⟩
  | dispatched i hi hx =>
    have he := exec_effect hx
    obtain ⟨hk, hacc, hic, hmem, hout⟩ := he.ends.of_faulted hi.running ht
    refine ⟨hacc, hic, fun h => absurd h hk, fun hne => ?_, fun hne => ?_, fun hne => ?_⟩
    · obtain ⟨a, rfl, hcells⟩ := hmem.resolve_left hne
      exact ⟨a, hi, fun _ => hcells⟩
    · obtain ⟨a, cs, rfl, happend⟩ := hout.resolve_left hne
      exact ⟨a, cs, hi, happend⟩
    · obtain ⟨hr, tok, htok⟩ := he.input.resolve_left hne
      exact ⟨i, tok, hi, hr, htok⟩

/-- Settles O52: each division is the checked operation of its mode, and the divisor fails that mode's zero test. -/
theorem zeroDivisorIsDivisionByZero : Obligations.ZeroDivisorIsDivisionByZero := by
  intro s a ha hw
  refine ⟨fun hval => ?_, fun hip => ?_⟩
  · have checked (op : FloatOp) := (floatDivideIntoAcc_cell op ha hw).trans (if_pos hval)
    exact ⟨checked .divide, checked .remainder⟩
  · have hint : (s.cell a).toInt = 0 := Int.natAbs_eq_zero.1 ((s.cell a).natAbs_toInt.trans hip)
    have checked (op : IntOp) := (intDivideIntoAcc_cell op ha hw).trans (if_pos hint)
    exact ⟨checked .divide, checked .mod⟩

end Machine
end Sys2Proof
end

section
/-! PROOFS. The state after reset (R230), and what the accumulator holds after a STORE and tells the branches (R234). -/

namespace Sys2Proof
namespace Machine

/-- Settles O33: `State.reset` gives each register and each port its value, and its empty memory lists no cell, so that
every cell is the unlisted one, `ZERO`. -/
theorem resetStateIsZeroAndRunning : Obligations.ResetStateIsZeroAndRunning :=
  ⟨rfl, rfl, rfl, rfl, rfl, rfl, Memory.get_nil, rfl, rfl⟩

theorem step_branchZero_of_acc_zero {s : State} {b : Nat} (h : s.Ready (.branchZero b)) (hacc : s.acc = .zero) :
    step s = .next (branchTo b s.front) := by
  have htaken : s.front.acc.isZero = true := by rw [State.front_acc, hacc]; rfl
  rw [step_ready h, exec_branchZero, if_pos htaken]

theorem step_branchNeg_of_acc_zero {s : State} {b : Nat} (h : s.Ready (.branchNeg b)) (hacc : s.acc = .zero) :
    step s = .next (advance s.front) := by
  have hnot : ¬ s.front.acc.isNegative = true := by rw [State.front_acc, hacc]; decide
  rw [step_ready h, exec_branchNeg, if_neg hnot]

/-- Settles O38: a dispatched STORE leaves `+0`, which passes the zero test and fails the sign test. -/
theorem storeDestroysTheAccumulator : Obligations.StoreDestroysTheAccumulator := by
  intro s a hi
  refine ⟨s.stored a, step_store hi, State.stored_acc s a, State.stored_ic s a, fun b hb => ?_, fun b hb => ?_⟩
  · exact ⟨_, step_branchZero_of_acc_zero hb (State.stored_acc s a), rfl⟩
  · exact ⟨_, step_branchNeg_of_acc_zero hb (State.stored_acc s a), rfl⟩

end Machine
end Sys2Proof
end

section
/-! PROOFS. Overflow is reported one instruction late (R235): which instructions can leave the accumulator out of range,
how a cycle that does so ends, and what the next cycle does (R111, R114). -/

namespace Sys2Proof
namespace Machine

/-! ### The instructions that can overflow -/

/-- The instructions that can leave an accumulator out of range after one in range: the twelve arithmetic ones without
DIVIDE_INT and REMAINDER_INT. -/
def mayOverflow : Instr → Bool
  | .addInt _ | .subtractInt _ | .multiplyInt _ | .powerInt _ => true
  | .addDouble _ | .subtractDouble _ | .multiplyDouble _ | .divideDouble _ | .remainderDouble _ | .powerDouble _ => true
  | _ => false

/-- The instructions that can overflow, as a list. -/
theorem mem_of_mayOverflow {i : Instr} (h : mayOverflow i = true) :
    i ∈ [.addInt i.operand, .subtractInt i.operand, .multiplyInt i.operand, .powerInt i.operand, .addDouble i.operand,
      .subtractDouble i.operand, .multiplyDouble i.operand, .divideDouble i.operand, .remainderDouble i.operand,
      .powerDouble i.operand] := by
  cases i <;> simp [mayOverflow, Instr.operand] at h ⊢

/-- None of them touches the memory or a port. -/
theorem writesNothing_of_mayOverflow {i : Instr} (h : mayOverflow i = true) :
    writesMemory i = false ∧ writesOutput i = false ∧ readClass i = false := by
  cases i <;> simp [mayOverflow, writesMemory, writesOutput, readClass] at h ⊢

theorem nextCounter_of_mayOverflow {i : Instr} (h : mayOverflow i = true) (s : State) :
    nextCounter i s = .fromInt (s.ic.toInt + 1) := by
  cases i <;> simp [mayOverflow, nextCounter] at h ⊢

theorem Effect.frame_of_mayOverflow {i : Instr} {s t : State} (he : Effect i s t) (hi : mayOverflow i = true) :
    t.mem = s.mem ∧ t.input = s.input ∧ t.output = s.output := by
  obtain ⟨hm, ho, hr⟩ := writesNothing_of_mayOverflow hi
  obtain ⟨es, hout, hes, _⟩ := he.output
  have hnil : es = [] := by simpa [ho] using hes
  exact ⟨he.mem.resolve_right (by simp [hm]), he.input.resolve_right (by simp [hr]),
    by rw [hout, hnil, List.append_nil]⟩

/-! ### The other instructions keep the accumulator in range -/

/-- The answer `r`, where it is a next state, has the accumulator in range. -/
def LeavesAccInRange (r : Result) : Prop := ∀ t, r = .next t → t.acc.overflow = false

theorem LeavesAccInRange.next {t : State} (h : t.acc.overflow = false) : LeavesAccInRange (.next t) := by
  rintro _ ⟨⟩
  exact h

theorem LeavesAccInRange.withCell {a : Nat} {s : State} {f : Word → Result} (hs : s.acc.overflow = false)
    (hf : (s.cell a).overflow = false → LeavesAccInRange (f (s.cell a))) :
    LeavesAccInRange (Machine.withCell a s f) := by
  obtain ⟨_, hw, h⟩ | ⟨_, h⟩ | ⟨_, _, h⟩ := withCell_cases a s f <;> rw [h]
  · exact hf hw
  · exact .next hs
  · exact .next hs

theorem leavesAccInRange_store (a : Nat) {s : State} (hs : s.acc.overflow = false) :
    LeavesAccInRange (exec (.store a) s) := by
  rw [exec_store]
  obtain ⟨_, _, h⟩ | ⟨_, h⟩ | ⟨_, _, h⟩ := withStore_cases a s.acc s (fun t => finishAcc .zero t) <;> rw [h]
  · exact .next rfl
  · exact .next hs
  · exact .next hs

/-- A division: the zero test of the divisor faults, or the result replaces the accumulator. -/
theorem LeavesAccInRange.divide {p : Prop} [Decidable p] {w : Word} {s : State} (hs : s.acc.overflow = false)
    (hw : ¬ p → w.overflow = false) :
    LeavesAccInRange (if p then .next (raise .divisionByZero s) else finishAcc w s) := by
  split
  · exact .next hs
  · next hp => exact .next (hw hp)

theorem overflow_intArith_divide {x : Word} (hx : x.overflow = false) (y : Word) :
    (intArith .divide x y).overflow = false :=
  overflow_fromInt_tdiv (Word.natAbs_toInt_le_of_overflow hx) y.toInt

theorem overflow_intArith_mod (x : Word) {y : Word} (hy : y.overflow = false) (hne : y.toInt ≠ 0) :
    (intArith .mod x y).overflow = false :=
  overflow_fromInt_tmod x.toInt hne (Word.natAbs_toInt_le_of_overflow hy)

/-- An instruction that cannot overflow leaves the accumulator as it is, or it is LOAD of a cell in range, STORE,
DIVIDE_INT or REMAINDER_INT. -/
theorem leavesAccInRange_of_not_mayOverflow {i : Instr} {s : State} (hi : mayOverflow i = false)
    (hs : s.acc.overflow = false) : LeavesAccInRange (exec i s) := by
  have keeps (hw : writesAcc i = false) : LeavesAccInRange (exec i s) := fun t ht => by
    rw [(exec_effect ht).acc.resolve_right (by simp [hw]), hs]
  cases i with
  | load a =>
    rw [exec_load]
    exact .withCell hs fun hw => .next hw
  | store a => exact leavesAccInRange_store a hs
  | divideInt a =>
    rw [exec_divideInt]
    exact .withCell hs fun _ => .divide hs fun _ => overflow_intArith_divide hs _
  | remainderInt a =>
    rw [exec_remainderInt]
    exact .withCell hs fun hw => .divide hs fun hne => overflow_intArith_mod s.acc hw hne
  | addInt | subtractInt | multiplyInt | powerInt => cases hi
  | addDouble | subtractDouble | multiplyDouble | divideDouble | remainderDouble | powerDouble => cases hi
  | _ => exact keeps rfl

/-! ### The cycle that overflows and the one behind it -/

/-- A cycle that leaves the machine running has dispatched an instruction. -/
theorem CycleResult.dispatched_of_running {s t : State} (h : CycleResult s t) (ht : t.run = .running) :
    ∃ i, s.Ready i ∧ exec i s.front = .next t := by
  cases h with
  | counterOutside _ eq => simp [eq] at ht
  | fetchFault _ eq => simp [eq] at ht
  | checkFault _ _ _ eq => simp [eq] at ht
  | dispatched i hi hx => exact ⟨i, hi, hx⟩

/-- With the accumulator out of range a cycle ends in step 1 or in step 4, whatever it fetches. -/
theorem step_of_acc_overflow {s : State} (hs : s.Inv) (hrun : s.run = .running) (ha : s.acc.overflow = true) :
    ∃ u, step s = .next u ∧ u = { s with ir := u.ir, opc := u.opc, opd := u.opd, run := u.run } ∧
      u.run = if 1000 ≤ s.ic.toInt then .faulted .programCounterOutOfBounds else .faulted .wordOverflow := by
  obtain ⟨_, h0, _⟩ := hs.counterValue
  by_cases h1 : 1000 ≤ s.ic.toInt
  · exact ⟨_, stepOneChecksTheInstructionCounter s hrun (.inr h1), rfl, (if_pos h1).symm⟩
  · have hw := Memory.overflow_get hs.memoryInRange s.ic.toInt.toNat
    exact ⟨_, stepFourChecksTheAccumulator s hrun h0 (by omega) hw ha, rfl, (if_neg h1).symm⟩

/-- Settles O36: the cycle has dispatched an instruction that can overflow, its end is a normal one that keeps the
invariant, and the next cycle starts with the accumulator out of range and `IC` one further. -/
theorem overflowIsReportedOneInstructionLate : Obligations.OverflowIsReportedOneInstructionLate := by
  intro s t hs hrun h ht hover
  obtain ⟨i, hi, hx⟩ := (cycleResult_of_step hrun h).dispatched_of_running ht
  have hmay : mayOverflow i = true := by
    by_contra hnot
    simp [leavesAccInRange_of_not_mayOverflow (by simpa using hnot) hi.front.accumulator t hx] at hover
  have he := exec_effect hx
  obtain ⟨hmem, hin, hout⟩ := he.frame_of_mayOverflow hmay
  obtain ⟨_, _, hread⟩ := writesNothing_of_mayOverflow hmay
  have hic : t.ic = .fromInt (s.ic.toInt + 1) :=
    (he.ends.ic_of_running ht (by simp [hread])).trans (nextCounter_of_mayOverflow hmay s.front)
  obtain ⟨u, hu, hkept, hend⟩ := step_of_acc_overflow (everyStepKeepsTheInvariant s t hs h) ht hover
  refine ⟨⟨i.operand, i, hi, mem_of_mayOverflow hmay⟩, hic, hmem, hin, hout, u, hu, hkept, hend.trans ?_⟩
  have hbound : 1000 ≤ t.ic.toInt ↔ s.ic.toInt = 999 := by
    have hcell := hi.counter
    rw [hic, Word.toInt_fromInt]
    omega
  exact if_congr hbound rfl rfl

end Machine
end Sys2Proof
end
